-- ==== Sys2Proof/Word.lean ====
section
/-! DEFINITION. The widths and the small closed types that the rest of the package speaks of: bytes, request words, line
levels, the three control lines, the answers of the Bus Transport and the bounded parameters of directives. -/

namespace Sys2Proof

/-- A byte, bit `k` of weight `2^k` (spec/00_scope.md R19). -/
abbrev Byte := BitVec 8

/-- A host request word, bit 31 the most significant (spec/30_encoding.md R101). -/
abbrev Word := BitVec 32

/-- A framebuffer byte index, `0 .. FB_SIZE-1` (spec/20_memory.md R62): a 10-bit number, so no index lies outside. -/
abbrev FbIndex := Fin 1024

/-- The level of a control line (spec/10_state.md R28). -/
inductive Level where
  | low
  | high
  deriving DecidableEq, Repr, Inhabited

/-- The other level (spec/00_scope.md R12: "with SEL_DEASSERT the other level"). -/
def Level.other : Level → Level
  | .low => .high
  | .high => .low

/-- The three named control lines (spec/10_state.md R28). -/
inductive Line where
  | select
  | mode
  | reset
  deriving DecidableEq, Repr, Inhabited

/-- The answer of the Bus Transport to one bus write (spec/43_framing.md R212). -/
inductive BusAnswer where
  | ok
  | fail
  deriving DecidableEq, Repr, Inhabited

/-- The addressing modes that `SetAddressingMode` names (spec/41_command_codec.md R157). -/
inductive AddressingMode where
  | horizontal
  | vertical
  | page
  deriving DecidableEq, Repr, Inhabited

/-- The last column or page of a window that starts at `first`: not below it (spec/41_command_codec.md R160, R161), so a window
with `s > e` cannot be written down (R152). -/
abbrev LastFrom {n : Nat} (first : BitVec n) := { last : BitVec n // first.toNat ≤ last.toNat }

/-- The 0 to 2 parameter bytes of `Other` (spec/41_command_codec.md R165). -/
inductive ParamBytes where
  | none
  | one (p : Byte)
  | two (p q : Byte)
  deriving DecidableEq, Repr, Inhabited

/-- The parameter bytes, in order. -/
def ParamBytes.toList : ParamBytes → List Byte
  | .none => []
  | .one p => [p]
  | .two p q => [p, q]

/-- 1024 bytes, byte `a` being `f a`: a whole framebuffer's content. -/
def fbVector (f : Nat → Byte) : Vector Byte 1024 :=
  ⟨((List.range 1024).map f).toArray, by simp⟩

end Sys2Proof
end

