-- ==== Sys2Proof/Syntax.lean ====
section
/-! DEFINITION. The instructions: one constructor per row of spec/opcode_table.json, nine host requests (spec/30_encoding.md
R102) and thirteen Command Codec directives (R109). Operands have the widths the encodings give them (R101, R103), and a directive's
parameters are bounded types, so that one out of range cannot be written down (spec/41_command_codec.md R152). -/

namespace Sys2Proof

inductive Instr where
  /-- `INIT` (spec/42_init_state_machine.md R180). -/
  | init
  /-- `RESET_SEQ` (R190). -/
  | resetSeq
  /-- `WRITE_COMMAND byte` (spec/43_framing.md R219). -/
  | writeCommand (byte : Byte)
  /-- `WRITE_DATA [b0, ..., b(len-1)]` (R221); the payload is part of the request (spec/30_encoding.md R104). -/
  | writeData (payload : List Byte)
  /-- `UPDATE` (spec/44_update.md R230). -/
  | update
  /-- `SET_PIXEL x, y, on` (spec/40_framebuffer.md R130): 8-bit unsigned coordinates (spec/30_encoding.md R103). -/
  | setPixel (x y : Byte) (on : Bool)
  /-- `CLEAR` (R133). -/
  | clear
  /-- `BULK_REPLACE [b0, ..., b1023]` (R135). -/
  | bulkReplace (payload : Vector Byte 1024)
  /-- `FB_READ idx` (R137): a 10-bit index, every value legal. -/
  | fbRead (idx : BitVec 10)
  /-- `DisplayOff` (spec/41_command_codec.md R153). -/
  | displayOff
  /-- `DisplayOn` (R154). -/
  | displayOn
  /-- `SetContrast(c)` (R155). -/
  | setContrast (c : Byte)
  /-- `SetMultiplexRatio(m)`, `m` in `0..63` (R156). -/
  | setMultiplexRatio (m : BitVec 6)
  /-- `SetAddressingMode(a)` (R157). -/
  | setAddressingMode (a : AddressingMode)
  /-- `SetSegmentRemap(r)` (R158). -/
  | setSegmentRemap (r : Bool)
  /-- `SetComScanDirection(r)` (R159). -/
  | setComScanDirection (r : Bool)
  /-- `SetColumnWindow(s, e)`, each `0..127`, `s <= e` (R160). -/
  | setColumnWindow (first : BitVec 7) (last : LastFrom first)
  /-- `SetPageWindow(s, e)`, each `0..7`, `s <= e` (R161). -/
  | setPageWindow (first : BitVec 3) (last : LastFrom first)
  /-- `SetPageStart(p)` (R162). -/
  | setPageStart (p : BitVec 3)
  /-- `SetColumnStartLow(n)` (R163). -/
  | setColumnStartLow (n : BitVec 4)
  /-- `SetColumnStartHigh(n)` (R164). -/
  | setColumnStartHigh (n : BitVec 4)
  /-- `Other(c, ps)`, `ps` of 0 to 2 parameter bytes (R165). -/
  | other (c : Byte) (ps : ParamBytes)
  deriving DecidableEq, Repr, Inhabited

end Sys2Proof
end

