-- ==== Sys2Proof/Config.lean ====
section
/-! DEFINITION. What is fixed for one machine: the constants of spec/00_scope.md R10 and R11, the OPEN parameters of R12 to
R17 as one record `Params`, their defaults, and the free values, which have no body: nothing can be proved of what they are. -/

namespace Sys2Proof

/-- Pixels per row, the number of columns (spec/00_scope.md R10). -/
abbrev WIDTH : Nat := 128
/-- Pixel rows (R10). -/
abbrev HEIGHT : Nat := 64
/-- Rows per page (R10). -/
abbrev PAGE_ROWS : Nat := 8
/-- Pages, `HEIGHT / PAGE_ROWS` (R10). -/
abbrev PAGES : Nat := HEIGHT / PAGE_ROWS
/-- Bytes of the framebuffer, `WIDTH * HEIGHT / 8` (R10). -/
abbrev FB_SIZE : Nat := WIDTH * HEIGHT / 8
/-- The mode line's level for command bytes (R11). -/
abbrev MODE_CMD : Level := .low
/-- The mode line's level for data bytes (R11). -/
abbrev MODE_DATA : Level := .high

/-- A length of time in the unnamed unit `DUNIT` (R13). -/
abbrev Duration := Nat

/-- One logical operation of the Command Codec (spec/41_command_codec.md R153 to R165), as it stands in `INIT_SEQ` and
`WINDOW_SEQ`. Every parameter is of a bounded type (R152). -/
inductive Directive where
  | displayOff
  | displayOn
  | setContrast (c : Byte)
  | setMultiplexRatio (m : BitVec 6)
  | setAddressingMode (a : AddressingMode)
  | setSegmentRemap (r : Bool)
  | setComScanDirection (r : Bool)
  | setColumnWindow (first : BitVec 7) (last : LastFrom first)
  | setPageWindow (first : BitVec 3) (last : LastFrom first)
  | setPageStart (p : BitVec 3)
  | setColumnStartLow (n : BitVec 4)
  | setColumnStartHigh (n : BitVec 4)
  | other (c : Byte) (ps : ParamBytes)
  deriving DecidableEq, Repr, Inhabited

/-- How a list of directives is cut into command transactions (spec/43_framing.md R217). -/
inductive CmdFraming where
  | perDirective
  | perByte
  deriving DecidableEq, Repr, Inhabited

/-- Where a stand-alone reset ends (spec/42_init_state_machine.md R192). -/
inductive PostResetState where
  | toUninitialized
  | keepPrevious
  deriving DecidableEq, Repr, Inhabited

/-- The OPEN parameters (spec/00_scope.md R12 to R17; spec/10_state.md R34). `codecTable` lists the directives whose bytes the
integrator replaces; every other directive has the bytes of the default table (spec/30_encoding.md R109; log entry 16). -/
structure Params where
  selAssert  : Level
  rstAssert  : Level
  tRstHold   : Duration
  tRstPulse  : Duration
  tRstSettle : Duration
  tPulseMin  : Duration
  tSettleMin : Duration
  initSeq    : List Directive
  windowSeq  : List Directive
  codecTable : List (Directive × List Byte)
  cmdFraming : CmdFraming
  maxChunk   : Option Nat
  postReset  : PostResetState
  deriving DecidableEq, Repr, Inhabited

/-- `SEL_DEASSERT` (spec/00_scope.md R12). -/
def Params.selDeassert (p : Params) : Level := p.selAssert.other
/-- `RST_DEASSERT` (R12). -/
def Params.rstDeassert (p : Params) : Level := p.rstAssert.other

/-- FREE VALUE (spec/10_state.md R48, spec/93_implementation_defined.md U3): byte `a` of the framebuffer after the `n`-th block
reset. -/
opaque Config.fbInit (n : Nat) (a : Nat) : Byte
/-- FREE VALUE (spec/10_state.md R49, 93 U17): the content of `req` after the `n`-th block reset. -/
opaque Config.resetReq (n : Nat) : Instr
/-- FREE VALUE (spec/43_framing.md R212, 93 U4): the answer to the `n`-th bus write for which no answer is listed. -/
opaque Config.freeAnswer (n : Nat) : BusAnswer
/-- FREE VALUE (spec/10_state.md R41; log entry 31): what `dly_dur` shows while `dly_start` is 0, `n` events having been
recorded. -/
opaque Config.idleDlyDur (n : Nat) : BitVec 32
/-- FREE VALUE (spec/00_scope.md R14): `T_RST_HOLD`. -/
opaque Config.holdTime : Duration
/-- FREE VALUE (R14): the datasheet's minimum pulse width `T_PULSE_MIN`. -/
opaque Config.pulseMin : Duration
/-- FREE VALUE (R14): how far `T_RST_PULSE` exceeds its minimum. -/
opaque Config.pulseSlack : Duration
/-- FREE VALUE (R14): the datasheet's minimum settle time `T_SETTLE_MIN`. -/
opaque Config.settleMin : Duration
/-- FREE VALUE (R14): how far `T_RST_SETTLE` exceeds its minimum. -/
opaque Config.settleSlack : Duration

/-- `INIT_SEQ_DEFAULT` (spec/42_init_state_machine.md R186). -/
def Config.initSeqDefault : List Directive :=
  [ .setAddressingMode .horizontal, .setMultiplexRatio 63, .setContrast 0x7F,
    .setSegmentRemap false, .setComScanDirection false, .displayOn ]

/-- `WINDOW_SEQ_DEFAULT` (spec/44_update.md R232). -/
def Config.windowSeqDefault : List Directive :=
  [ .setColumnWindow 0 ⟨127, by decide⟩, .setPageWindow 0 ⟨7, by decide⟩ ]

/-- The parameters `State.reset` takes: the spec's default where it gives one (spec/00_scope.md R12, R15 to R17), free values
for the durations, chosen so that the configuration is well formed (R14). DESIGN CHOICE, log entry 2. -/
def Config.default : Params where
  selAssert  := .low
  rstAssert  := .low
  tRstHold   := Config.holdTime
  tRstPulse  := Config.pulseMin + Config.pulseSlack
  tRstSettle := Config.settleMin + Config.settleSlack
  tPulseMin  := Config.pulseMin
  tSettleMin := Config.settleMin
  initSeq    := Config.initSeqDefault
  windowSeq  := Config.windowSeqDefault
  codecTable := []
  cmdFraming := .perDirective
  maxChunk   := none
  postReset  := .toUninitialized

end Sys2Proof
end

