-- ==== Sys2Proof/WellFormed.lean ====
section
/-! DEFINITION. What the types leave open of a well-formed instruction and configuration. -/

namespace Sys2Proof

/-- Instructions: a `WRITE_DATA` payload of 1 to 65535 bytes (spec/43_framing.md R221, spec/30_encoding.md R105 (b)). Every other
operand has the type of its range. -/
def Instr.wf : Instr → Bool
  | .writeData p => decide (1 ≤ p.length) && decide (p.length ≤ 65535)
  | .init | .resetSeq | .writeCommand _ | .update | .setPixel _ _ _ | .clear | .bulkReplace _ | .fbRead _
  | .displayOff | .displayOn | .setContrast _ | .setMultiplexRatio _ | .setAddressingMode _ | .setSegmentRemap _
  | .setComScanDirection _ | .setColumnWindow _ _ | .setPageWindow _ _ | .setPageStart _ | .setColumnStartLow _
  | .setColumnStartHigh _ | .other _ _ => true

/-- The directive kinds that spec/42_init_state_machine.md R186 orders. -/
inductive DirectiveKind where
  | addressingMode
  | multiplexRatio
  | contrast
  | segmentRemap
  | comScanDirection
  | displayOn
  | unordered
  deriving DecidableEq, Repr

def Directive.kind : Directive → DirectiveKind
  | .setAddressingMode _ => .addressingMode
  | .setMultiplexRatio _ => .multiplexRatio
  | .setContrast _ => .contrast
  | .setSegmentRemap _ => .segmentRemap
  | .setComScanDirection _ => .comScanDirection
  | .displayOn => .displayOn
  | .displayOff | .setColumnWindow _ _ | .setPageWindow _ _ | .setPageStart _ | .setColumnStartLow _
  | .setColumnStartHigh _ | .other _ _ => .unordered

/-- `INIT_SEQ` (spec/42_init_state_machine.md R186): the named directives in this relative order, `DisplayOn` last. The rule
does not order the two remap directives between themselves, so either order is accepted (DEDUCED, log entry 30). -/
def initSeqOk (seq : List Directive) : Bool :=
  let kinds := seq.map Directive.kind
  ([DirectiveKind.addressingMode, .multiplexRatio, .contrast, .segmentRemap, .comScanDirection].isSublist kinds
    || [DirectiveKind.addressingMode, .multiplexRatio, .contrast, .comScanDirection, .segmentRemap].isSublist kinds)
  && decide (kinds.getLast? = some .displayOn)

/-- `WINDOW_SEQ` (spec/44_update.md R232): non-empty. Its effect in the display is no fact of the block (spec/00_scope.md R9). -/
def windowSeqOk (seq : List Directive) : Bool :=
  !seq.isEmpty

/-- `MAX_CHUNK` is `none` or at least 1 (spec/00_scope.md R16). -/
def maxChunkOk : Option Nat → Bool
  | none => true
  | some m => decide (1 ≤ m)

/-- A well-formed configuration: the timing bounds of spec/00_scope.md R14 and the constraints on the sequences and the chunk
size. -/
def Params.wf (p : Params) : Bool :=
  decide (p.tPulseMin ≤ p.tRstPulse) && decide (p.tSettleMin ≤ p.tRstSettle)
  && initSeqOk p.initSeq && windowSeqOk p.windowSeq && maxChunkOk p.maxChunk

end Sys2Proof
end

