-- ==== Sys2Proof/Decode.lean ====
section
/-! DEFINITION. Decoding, total and rejecting by name, and the encoder written from the same tables (spec/30_encoding.md R101
to R109). A host request is a 32-bit word and the payload bytes that follow it; a codec directive is its byte list, command byte
first. -/

namespace Sys2Proof

/-- Why a decoder gives no instruction. -/
inductive Reject where
  /-- No row of R102 matches: an unused opcode or a reserved bit set (spec/30_encoding.md R105 (a)). -/
  | noRow
  /-- A `WRITE_DATA` word with `len = 0` (R105 (b)). -/
  | zeroLength
  /-- Fewer payload bytes than the word announces (spec/10_state.md R42, 93 U15). -/
  | payloadShort
  /-- More bytes than the request takes, in an image of one request. -/
  | payloadLong
  /-- A byte list of no directive's length (spec/30_encoding.md R108: 1 to 3 bytes). -/
  | notADirective
  deriving DecidableEq, Repr

/-- The nine rows of the opcode map (R102). -/
inductive RequestRow where
  | init
  | resetSeq
  | writeCommand
  | writeData
  | update
  | setPixel
  | clear
  | bulkReplace
  | fbRead
  deriving DecidableEq, Repr

/-- The row's `match` (R102). -/
def RequestRow.pattern : RequestRow → Word
  | .init => 0x10000000
  | .resetSeq => 0x20000000
  | .writeCommand => 0x30000000
  | .writeData => 0x40000000
  | .update => 0x50000000
  | .setPixel => 0x80000000
  | .clear => 0x90000000
  | .bulkReplace => 0xA0000000
  | .fbRead => 0xB0000000

/-- The row's `mask` (R102). -/
def RequestRow.mask : RequestRow → Word
  | .init => 0xFFFFFFFF
  | .resetSeq => 0xFFFFFFFF
  | .writeCommand => 0xFFFFFF00
  | .writeData => 0xFFFF0000
  | .update => 0xFFFFFFFF
  | .setPixel => 0xFFFE0000
  | .clear => 0xFFFFFFFF
  | .bulkReplace => 0xFFFFFFFF
  | .fbRead => 0xFFFFFC00

/-! The operand fields of a request word (R101, R103). -/

def opField (w : Word) : BitVec 4 := w.extractLsb' 28 4
def byteField (w : Word) : Byte := w.extractLsb' 0 8
def lenField (w : Word) : BitVec 16 := w.extractLsb' 0 16
def xField (w : Word) : Byte := w.extractLsb' 0 8
def yField (w : Word) : Byte := w.extractLsb' 8 8
def onField (w : Word) : Bool := w.getLsbD 16
def idxField (w : Word) : BitVec 10 := w.extractLsb' 0 10

/-- Are the bits from `lo` up to the opcode all zero? In every format the reserved bits are those (R101). -/
def reservedZero (w : Word) (lo : Nat) : Bool := w.extractLsb' lo (28 - lo) == 0

/-- The row a word selects: by its opcode, its reserved bits being zero (R101, R102). -/
def selectRow (w : Word) : Option RequestRow :=
  match (opField w).toNat with
  | 1 => if reservedZero w 0 then some .init else none
  | 2 => if reservedZero w 0 then some .resetSeq else none
  | 3 => if reservedZero w 8 then some .writeCommand else none
  | 4 => if reservedZero w 16 then some .writeData else none
  | 5 => if reservedZero w 0 then some .update else none
  | 8 => if reservedZero w 17 then some .setPixel else none
  | 9 => if reservedZero w 0 then some .clear else none
  | 10 => if reservedZero w 0 then some .bulkReplace else none
  | 11 => if reservedZero w 10 then some .fbRead else none
  | _ => none

/-- The payload length a request word announces (R104, R106). -/
def payloadLength (r : RequestRow) (w : Word) : Nat :=
  match r with
  | .writeData => (lenField w).toNat
  | .bulkReplace => FB_SIZE
  | .init | .resetSeq | .writeCommand | .update | .setPixel | .clear | .fbRead => 0

/-- A list of 1024 bytes as a framebuffer content; a list of another length is none, and `assemble` meets none. -/
def wholeBuffer (l : List Byte) : Vector Byte 1024 :=
  if h : l.length = 1024 then ⟨l.toArray, by simp [h]⟩ else fbVector (fun _ => 0)

/-- The instruction of a row, a word and its payload (R103, R104). -/
def assemble (r : RequestRow) (w : Word) (payload : List Byte) : Instr :=
  match r with
  | .init => .init
  | .resetSeq => .resetSeq
  | .writeCommand => .writeCommand (byteField w)
  | .writeData => .writeData payload
  | .update => .update
  | .setPixel => .setPixel (xField w) (yField w) (onField w)
  | .clear => .clear
  | .bulkReplace => .bulkReplace (wholeBuffer payload)
  | .fbRead => .fbRead (idxField w)

/-- Decode a request word, taking its payload from the front of the stream `pl`: the instruction and the rest of the stream. It
does not look at the session state (R106). An illegal word consumes no payload (R105). -/
def decodeRequest (w : Word) (pl : List Byte) : Except Reject (Instr × List Byte) :=
  match selectRow w with
  | none => .error .noRow
  | some r =>
    if r = .writeData ∧ lenField w = 0 then .error .zeroLength
    else if pl.length < payloadLength r w then .error .payloadShort
    else .ok (assemble r w (pl.take (payloadLength r w)), pl.drop (payloadLength r w))

/-- Directives of one byte (R109). A byte that is no named directive's is `Other` (spec/41_command_codec.md R165). -/
def decodeDirective1 (c : Byte) : Instr :=
  if c = 0xAE then .displayOff
  else if c = 0xAF then .displayOn
  else if c.extractLsb' 1 7 = 0b1010000#7 then .setSegmentRemap (c.getLsbD 0)
  else if c.extractLsb' 4 4 = 0b1100#4 ∧ c.extractLsb' 0 3 = 0 then .setComScanDirection (c.getLsbD 3)
  else if c.extractLsb' 3 5 = 0b10110#5 then .setPageStart (c.extractLsb' 0 3)
  else if c.extractLsb' 4 4 = 0b0000#4 then .setColumnStartLow (c.extractLsb' 0 4)
  else if c.extractLsb' 4 4 = 0b0001#4 then .setColumnStartHigh (c.extractLsb' 0 4)
  else .other c .none

/-- The code of an addressing mode, and back (R157: Horizontal = 0, Vertical = 1, Page = 2). -/
def AddressingMode.code : AddressingMode → BitVec 2
  | .horizontal => 0
  | .vertical => 1
  | .page => 2

def addressingModeOf (a : BitVec 2) : Option AddressingMode :=
  if a = 0 then some .horizontal else if a = 1 then some .vertical else if a = 2 then some .page else none

/-- Directives of two bytes (R109). -/
def decodeDirective2 (c p : Byte) : Instr :=
  if c = 0x81 then .setContrast p
  else if c = 0xA8 ∧ p.extractLsb' 6 2 = 0 then .setMultiplexRatio (p.extractLsb' 0 6)
  else if c = 0x20 ∧ p.extractLsb' 2 6 = 0 then
    match addressingModeOf (p.extractLsb' 0 2) with
    | some a => .setAddressingMode a
    | none => .other c (.one p)
  else .other c (.one p)

/-- `e` as the last column or page of a window that starts at `s`, if it is one (R160, R161). -/
def lastFrom {n : Nat} (s e : BitVec n) : Option (LastFrom s) :=
  if h : s.toNat ≤ e.toNat then some ⟨e, h⟩ else none

/-- Directives of three bytes (R109). -/
def decodeDirective3 (c p q : Byte) : Instr :=
  if c = 0x21 ∧ p.extractLsb' 7 1 = 0 ∧ q.extractLsb' 7 1 = 0 then
    match lastFrom (p.extractLsb' 0 7) (q.extractLsb' 0 7) with
    | some last => .setColumnWindow (p.extractLsb' 0 7) last
    | none => .other c (.two p q)
  else if c = 0x22 ∧ p.extractLsb' 3 5 = 0 ∧ q.extractLsb' 3 5 = 0 then
    match lastFrom (p.extractLsb' 0 3) (q.extractLsb' 0 3) with
    | some last => .setPageWindow (p.extractLsb' 0 3) last
    | none => .other c (.two p q)
  else .other c (.two p q)

/-- The directive a byte list spells under the default table (R109). The block never decodes directives (R100 (2)): this is the
table read backwards, for the directives that are placed for issue on their own. DESIGN CHOICE, log entry 17. -/
def decodeDirective (bytes : List Byte) : Except Reject Instr :=
  match bytes with
  | [c] => .ok (decodeDirective1 c)
  | [c, p] => .ok (decodeDirective2 c p)
  | [c, p, q] => .ok (decodeDirective3 c p q)
  | _ => .error .notADirective

/-- The written form of one instruction (R100). -/
inductive Image where
  | request (word : Word) (payload : List Byte)
  | directive (bytes : List Byte)
  deriving DecidableEq, Repr

/-- Decode the image of one instruction. -/
def decode : Image → Except Reject Instr
  | .request w payload =>
    match decodeRequest w payload with
    | .ok (i, []) => .ok i
    | .ok (_, _ :: _) => .error .payloadLong
    | .error e => .error e
  | .directive bytes => decodeDirective bytes

/-- The default table of the codec (R109; spec/41_command_codec.md R153 to R165). The byte values are the family's, from general
knowledge (93 G1); an integrator replaces them in `Params.codecTable`. -/
def directiveBytes : Directive → List Byte
  | .displayOff => [0xAE]
  | .displayOn => [0xAF]
  | .setContrast c => [0x81, c]
  | .setMultiplexRatio m => [0xA8, 0#2 ++ m]
  | .setAddressingMode a => [0x20, 0#6 ++ a.code]
  | .setSegmentRemap r => [0b1010000#7 ++ BitVec.ofBool r]
  | .setComScanDirection r => [0b1100#4 ++ BitVec.ofBool r ++ 0#3]
  | .setColumnWindow s e => [0x21, 0#1 ++ s, 0#1 ++ e.val]
  | .setPageWindow s e => [0x22, 0#5 ++ s, 0#5 ++ e.val]
  | .setPageStart p => [0b10110#5 ++ p]
  | .setColumnStartLow n => [0b0000#4 ++ n]
  | .setColumnStartHigh n => [0b0001#4 ++ n]
  | .other c ps => c :: ps.toList

/-- The number of parameter bytes of a directive, fixed per kind (R108, R109). -/
def Directive.paramCount : Directive → Nat
  | .displayOff | .displayOn | .setSegmentRemap _ | .setComScanDirection _ | .setPageStart _ | .setColumnStartLow _
  | .setColumnStartHigh _ => 0
  | .setContrast _ | .setMultiplexRatio _ | .setAddressingMode _ => 1
  | .setColumnWindow _ _ | .setPageWindow _ _ => 2
  | .other _ ps => ps.toList.length

/-- A directive as an instruction of the opcode table. -/
def Directive.toInstr : Directive → Instr
  | .displayOff => .displayOff
  | .displayOn => .displayOn
  | .setContrast c => .setContrast c
  | .setMultiplexRatio m => .setMultiplexRatio m
  | .setAddressingMode a => .setAddressingMode a
  | .setSegmentRemap r => .setSegmentRemap r
  | .setComScanDirection r => .setComScanDirection r
  | .setColumnWindow s e => .setColumnWindow s e
  | .setPageWindow s e => .setPageWindow s e
  | .setPageStart p => .setPageStart p
  | .setColumnStartLow n => .setColumnStartLow n
  | .setColumnStartHigh n => .setColumnStartHigh n
  | .other c ps => .other c ps

/-- The encoder (R101, R102, R109): the words and bytes of an instruction. -/
def encode : Instr → Image
  | .init => .request (0x1#4 ++ 0#28) []
  | .resetSeq => .request (0x2#4 ++ 0#28) []
  | .writeCommand byte => .request (0x3#4 ++ 0#20 ++ byte) []
  | .writeData payload => .request (0x4#4 ++ 0#12 ++ BitVec.ofNat 16 payload.length) payload
  | .update => .request (0x5#4 ++ 0#28) []
  | .setPixel x y on => .request (0x8#4 ++ 0#11 ++ BitVec.ofBool on ++ y ++ x) []
  | .clear => .request (0x9#4 ++ 0#28) []
  | .bulkReplace payload => .request (0xA#4 ++ 0#28) payload.toList
  | .fbRead idx => .request (0xB#4 ++ 0#18 ++ idx) []
  | .displayOff => .directive (directiveBytes .displayOff)
  | .displayOn => .directive (directiveBytes .displayOn)
  | .setContrast c => .directive (directiveBytes (.setContrast c))
  | .setMultiplexRatio m => .directive (directiveBytes (.setMultiplexRatio m))
  | .setAddressingMode a => .directive (directiveBytes (.setAddressingMode a))
  | .setSegmentRemap r => .directive (directiveBytes (.setSegmentRemap r))
  | .setComScanDirection r => .directive (directiveBytes (.setComScanDirection r))
  | .setColumnWindow s e => .directive (directiveBytes (.setColumnWindow s e))
  | .setPageWindow s e => .directive (directiveBytes (.setPageWindow s e))
  | .setPageStart p => .directive (directiveBytes (.setPageStart p))
  | .setColumnStartLow n => .directive (directiveBytes (.setColumnStartLow n))
  | .setColumnStartHigh n => .directive (directiveBytes (.setColumnStartHigh n))
  | .other c ps => .directive (directiveBytes (.other c ps))

/-- The mnemonic of an instruction (R111), letter for letter as spec/opcode_table.json spells it. -/
def Instr.mnemonic : Instr → String
  | .init => "INIT"
  | .resetSeq => "RESET_SEQ"
  | .writeCommand _ => "WRITE_COMMAND"
  | .writeData _ => "WRITE_DATA"
  | .update => "UPDATE"
  | .setPixel _ _ _ => "SET_PIXEL"
  | .clear => "CLEAR"
  | .bulkReplace _ => "BULK_REPLACE"
  | .fbRead _ => "FB_READ"
  | .displayOff => "DisplayOff"
  | .displayOn => "DisplayOn"
  | .setContrast _ => "SetContrast"
  | .setMultiplexRatio _ => "SetMultiplexRatio"
  | .setAddressingMode _ => "SetAddressingMode"
  | .setSegmentRemap _ => "SetSegmentRemap"
  | .setComScanDirection _ => "SetComScanDirection"
  | .setColumnWindow _ _ => "SetColumnWindow"
  | .setPageWindow _ _ => "SetPageWindow"
  | .setPageStart _ => "SetPageStart"
  | .setColumnStartLow _ => "SetColumnStartLow"
  | .setColumnStartHigh _ => "SetColumnStartHigh"
  | .other _ _ => "Other"

/-- The `n` bytes of `w`, the most significant first: a directive row of spec/opcode_table.json numbers its bits so, the command
byte in the highest bits. -/
def bytesOf : Nat → Nat → List Byte
  | 0, _ => []
  | n + 1, w => BitVec.ofNat 8 (w / 256 ^ n) :: bytesOf n w

/-- The image of an opcode-table row's word: a request word with a payload of zeros of the length it announces, or a directive's
bytes. -/
def tableImage (nbits w : Nat) : Option Image :=
  if nbits = 32 then
    let word : Word := BitVec.ofNat 32 w
    match selectRow word with
    | some r => some (.request word (List.replicate (payloadLength r word) 0))
    | none => some (.request word [])
  else if nbits = 8 then some (.directive (bytesOf 1 w))
  else if nbits = 16 then some (.directive (bytesOf 2 w))
  else if nbits = 24 then some (.directive (bytesOf 3 w))
  else none

/-- The instruction the decoder reads from an opcode-table word. A `WRITE_DATA` word with `len = 0` spells none (R105 (b); log
entry 27). -/
def decodeTableWord (nbits w : Nat) : Option Instr :=
  match tableImage nbits w with
  | none => none
  | some image =>
    match decode image with
    | .ok i => some i
    | .error _ => none

end Sys2Proof
end

