-- ==== Sys2Proof/Machine/State.lean ====
section
/-! DEFINITION. The state of the block as plain data (spec/10_state.md R21), the reasons a step can stop, and the state right
after a block reset (R45 to R52). -/

namespace Sys2Proof.Machine

/-- The session state (spec/10_state.md R22, R24). -/
inductive Session where
  | uninitialized
  | resetting
  | configuring
  | ready
  | faulted
  deriving DecidableEq, Repr, Inhabited

/-- The result codes (R32; spec/30_encoding.md R107). -/
inductive ResultCode where
  | ok
  | outOfBounds
  | busFailure
  | notInitialized
  | illegalRequest
  deriving DecidableEq, Repr, Inhabited

/-- The four micro-ops (R30; spec/43_framing.md R210 to R213). -/
inductive MicroOp where
  | line (w : Line) (l : Level)
  | wait (d : Duration)
  | tx (bytes : List Byte)
  | state (s : Session)
  deriving DecidableEq, Repr, Inhabited

/-- The micro-sequence counter (R30). -/
inductive Upc where
  | idle
  | running (k : Nat)
  deriving DecidableEq, Repr, Inhabited

/-- One entry of the trace (R40). -/
inductive Event where
  | line (w : Line) (l : Level)
  | delay (d : Duration)
  | bus (bytes : List Byte) (r : BusAnswer)
  deriving DecidableEq, Repr, Inhabited

/-- What waits at the block's inputs, in order: a request word on the host port (R41, R42); a block reset `rst_n` (R45), taken
only when idle (93 U14); a directive placed for issue on its own, which no host can do (spec/41_command_codec.md, head; log
entry 9). -/
inductive Input where
  | word (w : Word)
  | blockReset
  | directive (bytes : List Byte)
  deriving DecidableEq, Repr, Inhabited

/-- The framebuffer (R26): `init` is its free content since the last block reset (R48), `cells` the bytes that differ from it,
addresses strictly rising. -/
structure Memory where
  init  : Vector Byte 1024
  cells : List Host.Cell
  deriving DecidableEq, Repr

/-- The state. `cfg` holds the configuration parameters, which no step writes (R34; log entry 1). `draws` and `resets` are the
model's own counters for free values (log entries 6 and 3). -/
structure State where
  cfg      : Params
  st       : Session
  stPrev   : Session
  fb       : Memory
  sel      : Level
  mode     : Level
  rst      : Level
  req      : Instr
  uprog    : List MicroOp
  upc      : Upc
  res      : ResultCode
  rspValid : Bool
  rspData  : Byte
  trace    : List Event
  inbox    : List Input
  plIn     : List Byte
  answers  : List BusAnswer
  draws    : Nat
  resets   : Nat
  deriving DecidableEq, Repr

/-- Why the machine stops. -/
inductive Fault where
  /-- Raised by `step` when the payload stream holds fewer bytes than the accepted word announces: on the hardware the block then
  waits for ever (spec/10_state.md R42; 93 U15: stuck). Safe: nothing is claimed after it. -/
  | payloadStarved
  /-- Raised by `step` when `upc` points outside `uprog`. R30 rules such a state out and no run reaches one. Safe. -/
  | upcOutOfRange
  deriving DecidableEq, Repr

/-- Why the model gives no meaning. -/
inductive Refusal where
  /-- Raised by `exec` for an instruction without a meaning yet: none. Safe. -/
  | notModelled (mnemonic : String)
  /-- Raised by every meaning in a state that is not idle: a second request while one runs is not given a meaning
  (spec/10_state.md R31; 93 U1: refuse). `step` never asks for it. Safe. -/
  | busy
  /-- Raised by `step` when the byte list placed as a directive has no directive's length (spec/30_encoding.md R108). Safe. -/
  | notADirective
  deriving DecidableEq, Repr

/-- The framebuffer after the `n`-th block reset: any content (R48, 93 U3), a free value, nothing written. -/
def freshMemory (n : Nat) : Memory where
  init  := fbVector (Config.fbInit n)
  cells := []

/-- The state of a block with configuration `p` right after its first reset (R45 to R52). `req` is a free value (R49, 93 U17);
`rspData` 0 and the empty inputs are DESIGN CHOICE (log entries 5, 6, 18). -/
def State.resetWith (p : Params) : State where
  cfg      := p
  st       := .uninitialized
  stPrev   := .uninitialized
  fb       := freshMemory 0
  sel      := p.selDeassert
  mode     := .low
  rst      := p.rstDeassert
  req      := Config.resetReq 0
  uprog    := []
  upc      := .idle
  res      := .ok
  rspValid := false
  rspData  := 0
  trace    := []
  inbox    := []
  plIn     := []
  answers  := []
  draws    := 0
  resets   := 0

/-- The machine right after reset. -/
def State.reset : State := State.resetWith Config.default

end Sys2Proof.Machine
end

