-- ==== Sys2Proof/Machine/Flags.lean ====
section
/-! DEFINITION. The status flag, the status and result codes of the outputs, and how a request writes its result
(spec/10_state.md R22, R23, R32; spec/30_encoding.md R107). There are no arithmetic condition codes (R32). -/

namespace Sys2Proof.Machine

/-- The status flag `initialized` is the predicate `st == Ready` (spec/10_state.md R23). -/
def State.initialized (s : State) : Bool := decide (s.st = .ready)

/-- The code of the session state on `st_out` (R22). -/
def Session.code : Session → BitVec 3
  | .uninitialized => 0
  | .resetting => 1
  | .configuring => 2
  | .ready => 3
  | .faulted => 4

/-- The code of a result on `rsp_code` (spec/30_encoding.md R107). -/
def ResultCode.code : ResultCode → BitVec 3
  | .ok => 0
  | .outOfBounds => 1
  | .busFailure => 2
  | .notInitialized => 3
  | .illegalRequest => 4

/-- The level as a wire value (spec/10_state.md R41: `Low` = 0, `High` = 1). -/
def levelBit : Level → BitVec 1
  | .low => 0
  | .high => 1

/-- A request ends: the block is idle, `res` holds its code and the response is given, with the byte `data` (0 for every request
but `FB_READ`, R41). The micro-program has no meaning any more (log entry 28). -/
def State.complete (r : ResultCode) (data : Byte) (s : State) : State :=
  { s with upc := .idle, uprog := [], res := r, rspValid := true, rspData := data }

end Sys2Proof.Machine
end

