-- ==== Sys2Proof/Machine/Operands.lean ====
section
/-! DEFINITION. The operand forms of the requests: the pixel operand through the address translator (spec/20_memory.md R66 to
R70), the direct byte index (spec/40_framebuffer.md R137), the byte operands of a transaction and the pieces of a whole buffer
(spec/44_update.md R234). -/

namespace Sys2Proof.Machine

/-- A coordinate operand: the unsigned 8-bit field, zero-extended (spec/30_encoding.md R103), as the integer the rules speak of. -/
def coord (c : Byte) : Int := (c.toNat : Int)

/-- `(0 <= v) and (v < bound)`: a negative integer is below every range. -/
def inRange (v : Int) (bound : Nat) : Bool :=
  match v with
  | .ofNat n => decide (n < bound)
  | .negSucc _ => false

/-- The bounds check (spec/20_memory.md R70), over all integers. -/
def inBounds (x y : Int) : Bool := inRange x WIDTH && inRange y HEIGHT

theorem inRange_iff (v : Int) (bound : Nat) : inRange v bound = true ↔ 0 ≤ v ∧ v < bound := by
  cases v with
  | ofNat n => simp [inRange]
  | negSucc n => simp [inRange]

/-- The byte index of a pixel, `(y div 8) * WIDTH + x` (R66). -/
def pixelIdx (x y : Nat) : Nat := y / PAGE_ROWS * WIDTH + x

/-- The bit position of a pixel, `y mod 8` (R66). -/
def pixelBit (y : Nat) : Nat := y % PAGE_ROWS

/-- The bit mask of a pixel, `1 << (y mod 8)` (R66, R73). -/
def pixelMask (y : Nat) : Byte := 1#8 <<< pixelBit y

/-- The page of a framebuffer byte, `i div WIDTH` (R67). -/
def pageOf (i : Nat) : Nat := i / WIDTH

/-- The column of a framebuffer byte, `i mod WIDTH` (R67). -/
def columnOf (i : Nat) : Nat := i % WIDTH

/-- The pixel of bit `b` of byte `i` (R68), the inverse of the translator. -/
def pixelX (i : Nat) : Nat := i % WIDTH
def pixelY (i b : Nat) : Nat := PAGE_ROWS * (i / WIDTH) + b

/-- The pixel operand: the index and bit of an in-range pixel, nothing for any other (R70: no index is computed for an
out-of-range pair). -/
def pixelOperand (x y : Int) : Option (FbIndex × Nat) :=
  if h : inBounds x y = true then
    some (⟨pixelIdx x.toNat y.toNat, by
      simp only [inBounds, Bool.and_eq_true, inRange_iff, WIDTH, HEIGHT] at h
      simp only [pixelIdx, PAGE_ROWS, WIDTH]
      omega⟩, pixelBit y.toNat)
  else none

/-- The direct index operand of `FB_READ`: every 10-bit value is an index (spec/40_framebuffer.md R137). -/
def indexOperand (idx : BitVec 10) : FbIndex := ⟨idx.toNat, by have := idx.isLt; omega⟩

/-- The data transactions' pieces of the buffer (spec/44_update.md R234): chunk `j` is `F[jM .. min((j+1)M, 1024))`. -/
def chunks (maxChunk : Option Nat) (bytes : List Byte) : List (List Byte) :=
  match maxChunk with
  | none => [bytes]
  | some m =>
    if FB_SIZE ≤ m then [bytes]
    else (List.range ((FB_SIZE + m - 1) / m)).map (fun j => (bytes.drop (j * m)).take m)

end Sys2Proof.Machine
end

