-- ==== Sys2Proof/Machine/Ops.lean ====
section
/-! DEFINITION. The shared operations: the framebuffer primitives, the line registers, the trace, the transport's answer,
accepting a request, running a micro-op, and entering `Faulted` (the abort rule), the block's one exception. -/

namespace Sys2Proof.Machine

/-- What a step or a meaning answers. -/
abbrev StepResult := Host.Outcome State Fault Refusal

/-! ## The framebuffer -/

/-- The byte listed at address `a`, if one is. -/
def lookupCell : List Host.Cell → Nat → Option Byte
  | [], _ => none
  | (k, v) :: rest, a => if k = a then some v else lookupCell rest a

/-- List `v` at address `a`, keeping the addresses rising. -/
def insertCell (a : Nat) (v : Byte) : List Host.Cell → List Host.Cell
  | [] => [(a, v)]
  | (k, w) :: rest =>
    if a < k then (a, v) :: (k, w) :: rest
    else if a = k then (a, v) :: rest
    else (k, w) :: insertCell a v rest

/-- List nothing at address `a`. -/
def eraseCell (a : Nat) : List Host.Cell → List Host.Cell
  | [] => []
  | (k, w) :: rest => if k = a then rest else (k, w) :: eraseCell a rest

/-- What an address nothing is listed at reads as: the free content since the last block reset (spec/10_state.md R48). -/
abbrev Memory.unlisted (m : Memory) (a : FbIndex) : Byte := m.init.get a

/-- All framebuffer indices, in ascending order. -/
def allIndices : List FbIndex := List.finRange 1024

/-- `MemRead(addr, 1)` (spec/20_memory.md R64). -/
def Memory.read (m : Memory) (a : FbIndex) : Byte := (lookupCell m.cells a.val).getD (m.unlisted a)

/-- `MemWrite(addr, 1, v)` (R65). -/
def Memory.write (m : Memory) (a : FbIndex) (v : Byte) : Memory :=
  { m with cells := if v = m.unlisted a then eraseCell a.val m.cells else insertCell a.val v m.cells }

/-- Write all 1024 bytes, byte `a` becoming `f a`: the loop `for i in 0..FB_SIZE-1: MemWrite(i, 1, f i)` of
spec/40_framebuffer.md R133 and R135 done at once. -/
def Memory.fill (m : Memory) (f : FbIndex → Byte) : Memory :=
  { m with cells := allIndices.filterMap (fun a => if f a = m.unlisted a then none else some (a.val, f a)) }

/-- The whole content, `FB[0]` first (spec/20_memory.md R74). -/
def Memory.bytes (m : Memory) : List Byte := allIndices.map m.read

/-- Are the listed addresses at least `lo`, strictly rising and below 1024, and none listed with what it would read as
unlisted? -/
def cellsOk (init : Vector Byte 1024) : Nat → List Host.Cell → Bool
  | _, [] => true
  | lo, (k, v) :: rest =>
    decide (lo ≤ k) && (if h : k < 1024 then decide (v ≠ init.get ⟨k, h⟩) else false) && cellsOk init (k + 1) rest

/-- The canonical form of a framebuffer. -/
def Memory.wf (m : Memory) : Bool := cellsOk m.init 0 m.cells

/-- `SET_PIXEL`'s effect on the framebuffer for coordinates of any size (spec/40_framebuffer.md R130): nothing out of bounds, one
bit otherwise. -/
def setPixelIn (m : Memory) (x y : Int) (on : Bool) : Option Memory :=
  match pixelOperand x y with
  | none => none
  | some (i, b) =>
    let mask : Byte := 1#8 <<< b
    some (m.write i (if on then m.read i ||| mask else m.read i &&& ~~~mask))

/-! ## Lines, trace, transport -/

/-- `x[i] <- v` for the line registers (spec/00_scope.md R19, spec/10_state.md R28). -/
def State.setLine (w : Line) (l : Level) (s : State) : State :=
  match w with
  | .select => { s with sel := l }
  | .mode => { s with mode := l }
  | .reset => { s with rst := l }

/-- Append an event to the trace (R40). -/
def State.record (e : Event) (s : State) : State := { s with trace := s.trace ++ [e] }

/-- The answer of the Bus Transport to the next bus write: the first of `answers`, and when none is listed a free value
(spec/43_framing.md R212; 93 U4; log entry 6). -/
def State.nextAnswer (s : State) : BusAnswer :=
  match s.answers with
  | a :: _ => a
  | [] => Config.freeAnswer s.draws

/-- The transport has answered. -/
def State.dropAnswer (s : State) : State :=
  match s.answers with
  | _ :: rest => { s with answers := rest }
  | [] => { s with draws := s.draws + 1 }

/-! ## Accepting a request (spec/10_state.md R31) -/

/-- The latches written when a request is accepted: `req` (R29) and `st_prev` (R36). The response of the request before is over
(R41: `rsp_valid` is high for one cycle). -/
def State.latch (i : Instr) (s : State) : State :=
  { s with req := i, stPrev := s.st, rspValid := false }

/-- Only an idle block takes a request (R31, 93 U1). -/
def whenIdle (s : State) (t : State) : StepResult :=
  match s.upc with
  | .idle => .next t
  | .running _ => .refused .busy

/-- Accept a request whose micro-program is empty: it completes at once (R31). -/
def acceptDone (i : Instr) (r : ResultCode) (data : Byte) (s : State) : StepResult :=
  whenIdle s ((s.latch i).complete r data)

/-- Accept a request that changes the framebuffer and completes at once (R31, spec/40_framebuffer.md). -/
def acceptStore (i : Instr) (m : Memory) (s : State) : StepResult :=
  whenIdle s (({ s with fb := m }.latch i).complete .ok 0)

/-- Load a micro-program: `uprog <- prog; upc <- 0`, or complete at once if it is empty (R31). -/
def State.load (prog : List MicroOp) (s : State) : State :=
  match prog with
  | [] => s.complete .ok 0
  | _ :: _ => { s with uprog := prog, upc := .running 0 }

/-- Accept a request with its micro-program (R31). -/
def accept (i : Instr) (prog : List MicroOp) (s : State) : StepResult :=
  whenIdle s ((s.latch i).load prog)

/-- The state check of a request that needs `Ready`: otherwise `NotInitialized`, with no event (spec/60_exceptions.md R253,
R261). -/
def acceptReady (i : Instr) (prog : List MicroOp) (s : State) : StepResult :=
  match s.st with
  | .ready => accept i prog s
  | .uninitialized | .resetting | .configuring | .faulted => acceptDone i .notInitialized 0 s

/-! ## Running a micro-op -/

/-- `upc <- upc + 1`, or the request completes with `Ok` after the last micro-op (R31). -/
def State.advance (k : Nat) (s : State) : State :=
  if k + 1 < s.uprog.length then { s with upc := .running (k + 1) } else s.complete .ok 0

/-- Entry to `Faulted`: the abort rule (spec/43_framing.md R216, spec/60_exceptions.md R258). The select line is deasserted, the
micro-op that would have done so being executed, `st <- Faulted`, `res <- BusFailure`, `upc <- Idle`; nothing is saved. -/
def State.enterFaulted (s : State) : State :=
  let t := (s.setLine .select s.cfg.selDeassert).record (.line .select s.cfg.selDeassert)
  { t with st := .faulted }.complete .busFailure 0

/-- The effect of the micro-op `op` standing at `upc = k` (R210 to R213). A `STATE Ready` at the end of an `INIT` is the one way
out of `Faulted` (spec/60_exceptions.md R259). -/
def State.runMicroOp (k : Nat) (op : MicroOp) (s : State) : State :=
  match op with
  | .line w l => ((s.setLine w l).record (.line w l)).advance k
  | .wait d => (s.record (.delay d)).advance k
  | .state x => { s with st := x }.advance k
  | .tx bytes =>
    match s.nextAnswer with
    | .ok => (s.dropAnswer.record (.bus bytes .ok)).advance k
    | .fail => (s.dropAnswer.record (.bus bytes .fail)).enterFaulted

/-- One step of a busy block: it executes `uprog[upc]` (R31). -/
def microStep (k : Nat) (s : State) : StepResult :=
  match s.uprog[k]? with
  | some op => .next ({ s with rspValid := false }.runMicroOp k op)
  | none => .fault .upcOutOfRange

/-! ## Block reset and illegal words -/

/-- The block reset `rst_n` of an idle block (R45 to R52; spec/70_reset_and_hazards.md R290): the registers take their reset
values, FB and `req` are free again, the trace is not cleared (R40), the parameters stand (R34). -/
def State.blockReset (s : State) : State :=
  { State.resetWith s.cfg with
    fb := freshMemory (s.resets + 1), req := Config.resetReq (s.resets + 1), trace := s.trace, inbox := s.inbox, plIn := s.plIn,
    answers := s.answers, draws := s.draws, resets := s.resets + 1 }

/-- An illegal request word is answered `IllegalRequest` and changes nothing else (spec/30_encoding.md R105). -/
def State.answerIllegal (s : State) : State := s.complete .illegalRequest 0

end Sys2Proof.Machine
end

