-- ==== Sys2Proof/Machine/Framing.lean ====
section
/-! DEFINITION. The framed transaction (spec/43_framing.md R214) and the two requests that expose one each (R219, R221). -/

namespace Sys2Proof.Machine

/-- `Txn(m, bytes)` (R214). -/
def txn (p : Params) (m : Level) (bytes : List Byte) : List MicroOp :=
  [.line .select p.selAssert, .line .mode m, .tx bytes, .line .select p.selDeassert]

/-- `CmdTxn(bytes)` (R214). -/
def cmdTxn (p : Params) (bytes : List Byte) : List MicroOp := txn p MODE_CMD bytes

/-- `DataTxn(bytes)` (R214). -/
def dataTxn (p : Params) (bytes : List Byte) : List MicroOp := txn p MODE_DATA bytes

/-- The micro-program of `WRITE_COMMAND byte` in `Ready` (R219). -/
def writeCommandProgram (p : Params) (byte : Byte) : List MicroOp := cmdTxn p [byte]

/-- The micro-program of `WRITE_DATA payload` in `Ready` (R221): one transaction, `MAX_CHUNK` does not apply. -/
def writeDataProgram (p : Params) (payload : List Byte) : List MicroOp := dataTxn p payload

/-- `WRITE_COMMAND byte` (R219). -/
def execWriteCommand (byte : Byte) (s : State) : StepResult :=
  acceptReady (.writeCommand byte) (writeCommandProgram s.cfg byte) s

/-- `WRITE_DATA payload` (R221). The empty payload is the illegal request of spec/30_encoding.md R105 (b), whatever `st` is
(spec/60_exceptions.md R257). -/
def execWriteData (payload : List Byte) (s : State) : StepResult :=
  match payload with
  | [] => whenIdle s s.answerIllegal
  | b :: rest => acceptReady (.writeData (b :: rest)) (writeDataProgram s.cfg (b :: rest)) s

end Sys2Proof.Machine
end

