-- ==== Sys2Proof/Machine/Codec.lean ====
section
/-! DEFINITION. The Command Codec (spec/41_command_codec.md), how a list of directives becomes command transactions
(spec/43_framing.md R217), and the meaning of each directive: its bytes are emitted, framed as command transactions, where it
stands. -/

namespace Sys2Proof.Machine

/-- The integrator's entry for a directive, if there is one. -/
def codecEntry : List (Directive × List Byte) → Directive → Option (List Byte)
  | [], _ => none
  | (k, bytes) :: rest, d => if k = d then some bytes else codecEntry rest d

/-- `CODEC` (R151): the integrator's bytes for a named directive where they have the directive's length, the default table's
otherwise (log entry 16); `Other(c, ps)` is `[c] ++ ps` (R165). -/
def codec (p : Params) (d : Directive) : List Byte :=
  match d with
  | .other c ps => c :: ps.toList
  | .displayOff | .displayOn | .setContrast _ | .setMultiplexRatio _ | .setAddressingMode _ | .setSegmentRemap _
  | .setComScanDirection _ | .setColumnWindow _ _ | .setPageWindow _ _ | .setPageStart _ | .setColumnStartLow _
  | .setColumnStartHigh _ =>
    match codecEntry p.codecTable d with
    | some bytes => if bytes.length = 1 + d.paramCount then bytes else directiveBytes d
    | none => directiveBytes d

/-- `cmd_frames(seq)` (spec/43_framing.md R217). -/
def cmdFrames (p : Params) (seq : List Directive) : List (List Byte) :=
  match p.cmdFraming with
  | .perDirective => seq.map (codec p)
  | .perByte => seq.flatMap (fun d => (codec p d).map (fun b => [b]))

/-- The command transactions of a list of frames, one after the other (spec/42_init_state_machine.md R183). -/
def cmdTxns (p : Params) (frames : List (List Byte)) : List MicroOp := frames.flatMap (cmdTxn p)

/-- The micro-ops that one directive contributes to a sequence. -/
def directiveProgram (p : Params) (d : Directive) : List MicroOp := cmdTxns p (cmdFrames p [d])

/-- A directive issued on its own (log entry 9): the block runs the micro-ops the directive stands for in a sequence. They are bus
transactions that are asked for, so they need `Ready` as those of `WRITE_COMMAND` do (spec/90_conflicts.md C2,
spec/60_exceptions.md R253), and `st` changes along the table of spec/10_state.md R25 only. -/
def issue (d : Directive) (s : State) : StepResult := acceptReady d.toInstr (directiveProgram s.cfg d) s

/-- `DisplayOff` (R153). -/
def execDisplayOff (s : State) : StepResult := issue .displayOff s
/-- `DisplayOn` (R154). -/
def execDisplayOn (s : State) : StepResult := issue .displayOn s
/-- `SetContrast(c)` (R155). -/
def execSetContrast (c : Byte) (s : State) : StepResult := issue (.setContrast c) s
/-- `SetMultiplexRatio(m)` (R156). -/
def execSetMultiplexRatio (m : BitVec 6) (s : State) : StepResult := issue (.setMultiplexRatio m) s
/-- `SetAddressingMode(a)` (R157). -/
def execSetAddressingMode (a : AddressingMode) (s : State) : StepResult := issue (.setAddressingMode a) s
/-- `SetSegmentRemap(r)` (R158). -/
def execSetSegmentRemap (r : Bool) (s : State) : StepResult := issue (.setSegmentRemap r) s
/-- `SetComScanDirection(r)` (R159). -/
def execSetComScanDirection (r : Bool) (s : State) : StepResult := issue (.setComScanDirection r) s
/-- `SetColumnWindow(s, e)` (R160). -/
def execSetColumnWindow (first : BitVec 7) (last : LastFrom first) (s : State) : StepResult :=
  issue (.setColumnWindow first last) s
/-- `SetPageWindow(s, e)` (R161). -/
def execSetPageWindow (first : BitVec 3) (last : LastFrom first) (s : State) : StepResult :=
  issue (.setPageWindow first last) s
/-- `SetPageStart(p)` (R162). -/
def execSetPageStart (p : BitVec 3) (s : State) : StepResult := issue (.setPageStart p) s
/-- `SetColumnStartLow(n)` (R163). -/
def execSetColumnStartLow (n : BitVec 4) (s : State) : StepResult := issue (.setColumnStartLow n) s
/-- `SetColumnStartHigh(n)` (R164). -/
def execSetColumnStartHigh (n : BitVec 4) (s : State) : StepResult := issue (.setColumnStartHigh n) s
/-- `Other(c, ps)` (R165). -/
def execOther (c : Byte) (ps : ParamBytes) (s : State) : StepResult := issue (.other c ps) s

end Sys2Proof.Machine
end

