-- ==== Sys2Proof/Machine/Framebuffer.lean ====
section
/-! DEFINITION. The framebuffer requests (spec/40_framebuffer.md). Each has an empty micro-program and completes in its own step,
in every session state (R138). -/

namespace Sys2Proof.Machine

/-- `SET_PIXEL x, y, on` (R130, R131, R132). -/
def execSetPixel (x y : Byte) (on : Bool) (s : State) : StepResult :=
  match setPixelIn s.fb (coord x) (coord y) on with
  | none => acceptDone (.setPixel x y on) .outOfBounds 0 s
  | some m => acceptStore (.setPixel x y on) m s

/-- `CLEAR` (R133, R134). -/
def execClear (s : State) : StepResult :=
  acceptStore .clear (s.fb.fill (fun _ => 0)) s

/-- `BULK_REPLACE [b0, ..., b1023]` (R135, R136). -/
def execBulkReplace (payload : Vector Byte 1024) (s : State) : StepResult :=
  acceptStore (.bulkReplace payload) (s.fb.fill payload.get) s

/-- `FB_READ idx` (R137). -/
def execFbRead (idx : BitVec 10) (s : State) : StepResult :=
  acceptDone (.fbRead idx) .ok (s.fb.read (indexOperand idx)) s

end Sys2Proof.Machine
end

