-- ==== Sys2Proof/Machine/InitSequence.lean ====
section
/-! DEFINITION. The two requests that drive the reset line and the session state (spec/42_init_state_machine.md). -/

namespace Sys2Proof.Machine

/-- `ResetTiming` (R182): each wait is issued, also when its duration is 0. -/
def resetTiming (p : Params) : List MicroOp :=
  [ .line .reset p.rstDeassert, .wait p.tRstHold,
    .line .reset p.rstAssert, .wait p.tRstPulse,
    .line .reset p.rstDeassert, .wait p.tRstSettle ]

/-- The micro-program of `INIT` (R181). -/
def initProgram (p : Params) : List MicroOp :=
  [.state .resetting] ++ resetTiming p ++ [.state .configuring] ++ cmdTxns p (cmdFrames p p.initSeq) ++ [.state .ready]

/-- `post` (R192): where a stand-alone reset ends. `Resetting` and `Configuring` do not occur at acceptance (R25). -/
def postState (p : Params) (prev : Session) : Session :=
  match prev with
  | .faulted => .faulted
  | .uninitialized | .ready | .resetting | .configuring =>
    match p.postReset with
    | .toUninitialized => .uninitialized
    | .keepPrevious => prev

/-- The micro-program of `RESET_SEQ` accepted in `prev` (R191). -/
def resetSeqProgram (p : Params) (prev : Session) : List MicroOp :=
  [.state .resetting] ++ resetTiming p ++ [.state (postState p prev)]

/-- `INIT` (R180): accepted in every state an idle block can be in. -/
def execInit (s : State) : StepResult := accept .init (initProgram s.cfg) s

/-- `RESET_SEQ` (R190); `st_prev` is the state at acceptance (spec/10_state.md R36). -/
def execResetSeq (s : State) : StepResult := accept .resetSeq (resetSeqProgram s.cfg s.st) s

end Sys2Proof.Machine
end

