-- ==== Sys2Proof/Machine/Update.lean ====
section
/-! DEFINITION. The full-frame push (spec/44_update.md). -/

namespace Sys2Proof.Machine

/-- The micro-program of `UPDATE` in `Ready` (R231): the window transactions, then the data transactions of the chunks of the
framebuffer as it is at acceptance (R239). -/
def updateProgram (p : Params) (m : Memory) : List MicroOp :=
  cmdTxns p (cmdFrames p p.windowSeq) ++ (chunks p.maxChunk m.bytes).flatMap (dataTxn p)

/-- `UPDATE` (R230). -/
def execUpdate (s : State) : StepResult := acceptReady .update (updateProgram s.cfg s.fb) s

end Sys2Proof.Machine
end

