-- ==== Sys2Proof/Machine/Dispatch.lean ====
section
/-! DEFINITION. One arm per constructor of Instr: the meaning of each instruction, asked of an idle block. -/

namespace Sys2Proof.Machine

def exec (i : Instr) (s : State) : Host.Outcome State Fault Refusal :=
  match i with
  | .init => Sys2Proof.Machine.execInit s
  | .resetSeq => Sys2Proof.Machine.execResetSeq s
  | .writeCommand byte => Sys2Proof.Machine.execWriteCommand byte s
  | .writeData payload => Sys2Proof.Machine.execWriteData payload s
  | .update => Sys2Proof.Machine.execUpdate s
  | .setPixel x y on => Sys2Proof.Machine.execSetPixel x y on s
  | .clear => Sys2Proof.Machine.execClear s
  | .bulkReplace payload => Sys2Proof.Machine.execBulkReplace payload s
  | .fbRead idx => Sys2Proof.Machine.execFbRead idx s
  | .displayOff => Sys2Proof.Machine.execDisplayOff s
  | .displayOn => Sys2Proof.Machine.execDisplayOn s
  | .setContrast c => Sys2Proof.Machine.execSetContrast c s
  | .setMultiplexRatio m => Sys2Proof.Machine.execSetMultiplexRatio m s
  | .setAddressingMode a => Sys2Proof.Machine.execSetAddressingMode a s
  | .setSegmentRemap r => Sys2Proof.Machine.execSetSegmentRemap r s
  | .setComScanDirection r => Sys2Proof.Machine.execSetComScanDirection r s
  | .setColumnWindow first last => Sys2Proof.Machine.execSetColumnWindow first last s
  | .setPageWindow first last => Sys2Proof.Machine.execSetPageWindow first last s
  | .setPageStart p => Sys2Proof.Machine.execSetPageStart p s
  | .setColumnStartLow n => Sys2Proof.Machine.execSetColumnStartLow n s
  | .setColumnStartHigh n => Sys2Proof.Machine.execSetColumnStartHigh n s
  | .other c ps => Sys2Proof.Machine.execOther c ps s

end Sys2Proof.Machine
end

