-- ==== Sys2Proof/Machine/Fetch.lean ====
section
/-! DEFINITION. What an idle block takes from its inputs (spec/10_state.md R41, R42, R45, R52), and how an image is placed there. -/

namespace Sys2Proof.Machine

/-- What an idle block has found: an instruction to run in a state, or the answer of the step itself. -/
inductive Fetched where
  | run (i : Instr) (s : State)
  | done (r : StepResult)

/-- A request word is taken with its payload (R42; spec/30_encoding.md R104, R106). An illegal word is answered and takes no
payload (R105); a payload that does not come leaves the block waiting for ever (R42, 93 U15). Decoding comes before every other
check (spec/60_exceptions.md R257). -/
def fetchWord (w : Word) (s : State) : Fetched :=
  match decodeRequest w s.plIn with
  | .ok (i, rest) => .run i { s with plIn := rest }
  | .error .payloadShort => .done (.fault .payloadStarved)
  | .error .noRow | .error .zeroLength | .error .payloadLong | .error .notADirective => .done (.next s.answerIllegal)

/-- An idle block: with no input it does nothing (R52); otherwise it takes the first input. -/
def fetch (s : State) : Fetched :=
  match s.inbox with
  | [] => .done (.next { s with rspValid := false })
  | .word w :: rest => fetchWord w { s with inbox := rest }
  | .blockReset :: rest => .done (.next { s with inbox := rest }.blockReset)
  | .directive bytes :: rest =>
    match decodeDirective bytes with
    | .ok i => .run i { s with inbox := rest }
    | .error _ => .done (.refused .notADirective)

/-- `s`, idle, with the image as its first input: a program reaches the block so (log entry 18). -/
def State.placeImage (image : Image) (s : State) : State :=
  match image with
  | .request w payload =>
    { s with upc := .idle, uprog := [], inbox := .word w :: s.inbox, plIn := payload ++ s.plIn }
  | .directive bytes => { s with upc := .idle, uprog := [], inbox := .directive bytes :: s.inbox }

end Sys2Proof.Machine
end

