-- ==== Sys2Proof/Machine/Step.lean ====
section
/-! DEFINITION. One step of the block (spec/10_state.md R31): a busy block executes one micro-op, an idle one takes an input. -/

namespace Sys2Proof.Machine

def step (s : State) : Host.Outcome State Fault Refusal :=
  match s.upc with
  | .running k => microStep k s
  | .idle =>
    match fetch s with
    | .run i t => exec i t
    | .done r => r

/-- `s` with an opcode-table word placed where the next step takes it (log entry 18). -/
def State.withFetchWord (s : State) (nbits w : Nat) : State :=
  match tableImage nbits w with
  | some image => s.placeImage image
  | none => s

end Sys2Proof.Machine
end

