-- ==== Sys2Proof/Machine/Ports.lean ====
section
/-! DEFINITION. The outputs of the port list as functions of the state (spec/10_state.md R41, R43, R44, R50), at the grain of one
micro-op: what the block drives while the micro-op at `upc` is to run. -/

namespace Sys2Proof.Machine

/-- The outputs of R41. `txBeats` are the bytes presented on `tx_byte` during the micro-op, in order, each with `tx_last` (R43);
`txValid` says that there are some. -/
structure Ports where
  reqReady : Bool
  plReady  : Bool
  rspValid : Bool
  rspCode  : BitVec 3
  rspData  : Byte
  stOut    : BitVec 3
  busy     : Bool
  selO     : BitVec 1
  modeO    : BitVec 1
  rstO     : BitVec 1
  txValid  : Bool
  txBeats  : List (Byte × Bool)
  dlyStart : Bool
  dlyDur   : BitVec 32
  deriving DecidableEq, Repr

/-- The block is busy exactly when `upc != Idle` (R31). -/
def State.busy (s : State) : Bool :=
  match s.upc with
  | .idle => false
  | .running _ => true

/-- The micro-op that the next step executes, of a busy block (R30). -/
def State.currentOp (s : State) : Option MicroOp :=
  match s.upc with
  | .idle => none
  | .running k => s.uprog[k]?

/-- The bytes of a bus write with `tx_last` on the final one (R43). -/
def beats : List Byte → List (Byte × Bool)
  | [] => []
  | [b] => [(b, true)]
  | b :: c :: rest => (b, false) :: beats (c :: rest)

/-- The bytes that a `TX` hands to the transport. -/
def txBytes : Option MicroOp → List Byte
  | some (.tx bytes) => bytes
  | some (.line _ _) | some (.wait _) | some (.state _) | none => []

/-- The duration that a `WAIT` asks for. -/
def waitFor : Option MicroOp → Option Duration
  | some (.wait d) => some d
  | some (.line _ _) | some (.tx _) | some (.state _) | none => none

/-- The outputs (R41, R50). The payload is taken within the step that accepts its request, so `plReady` is 0 between steps (log
entry 26); `dlyDur` has 32 bits (log entry 22). What an output shows while the signal that makes it valid is 0 is the model's
(log entry 31): `dlyDur` a free value; `rspCode` and `rspData` the last response, DESIGN CHOICE. -/
def ports (s : State) : Ports where
  reqReady := !s.busy
  plReady  := false
  rspValid := s.rspValid
  rspCode  := s.res.code
  rspData  := s.rspData
  stOut    := s.st.code
  busy     := s.busy
  selO     := levelBit s.sel
  modeO    := levelBit s.mode
  rstO     := levelBit s.rst
  txValid  := !(txBytes s.currentOp).isEmpty
  txBeats  := beats (txBytes s.currentOp)
  dlyStart := (waitFor s.currentOp).isSome
  dlyDur   :=
    match waitFor s.currentOp with
    | some d => BitVec.ofNat 32 d
    | none => Config.idleDlyDur s.trace.length

end Sys2Proof.Machine
end

