-- ==== Sys2Proof/Safety.lean ====
section
/-! DEFINITION. The terms that statements about runs are written in: several steps, the events a request leaves, the traces the
block may leave (spec/43_framing.md R215), and the invariant of its states. -/

namespace Sys2Proof.Machine

/-- `n` steps, stopping at the first fault or refusal. -/
def steps : Nat → State → StepResult
  | 0, s => .next s
  | n + 1, s =>
    match step s with
    | .next t => steps n t
    | .fault r => .fault r
    | .refused r => .refused r

/-! ## Events -/

/-- The six events of `ResetTiming` (spec/42_init_state_machine.md R182). -/
def resetEvents (p : Params) : List Event :=
  [ .line .reset p.rstDeassert, .delay p.tRstHold,
    .line .reset p.rstAssert, .delay p.tRstPulse,
    .line .reset p.rstDeassert, .delay p.tRstSettle ]

/-- The four events of a transaction that the transport answered with `r` (spec/43_framing.md R214, R216). -/
def txnEvents (p : Params) (m : Level) (r : BusAnswer) (bytes : List Byte) : List Event :=
  [.line .select p.selAssert, .line .mode m, .bus bytes r, .line .select p.selDeassert]

/-- The transactions of an `UPDATE`, each with its mode level: the window frames, then the chunks (spec/44_update.md R231, R233). -/
def updateTxns (p : Params) (m : Memory) : List (Level × List Byte) :=
  (cmdFrames p p.windowSeq).map (fun f => (MODE_CMD, f)) ++ (chunks p.maxChunk m.bytes).map (fun c => (MODE_DATA, c))

/-- The events of transactions that were all answered `Ok`. -/
def okTxns (p : Params) (txns : List (Level × List Byte)) : List Event :=
  txns.flatMap (fun t => txnEvents p t.1 .ok t.2)

/-- The traces the block may leave between requests: reset pulses and whole transactions, one after the other
(R215 (3); spec/95_test_vectors.md 2.12). -/
inductive WellFramed (p : Params) : List Event → Prop where
  | nil : WellFramed p []
  | reset {t : List Event} : WellFramed p t → WellFramed p (t ++ resetEvents p)
  | txn {t : List Event} (m : Level) (r : BusAnswer) {bytes : List Byte} :
      WellFramed p t → bytes ≠ [] → WellFramed p (t ++ txnEvents p m r bytes)

/-- The bytes of the bus writes made with the mode line `High`, in trace order, `m` being the mode line's level before
(spec/44_update.md R237). -/
def dataPayload : Level → List Event → List Byte
  | _, [] => []
  | _, .line .mode l :: rest => dataPayload l rest
  | m, .line .select _ :: rest => dataPayload m rest
  | m, .line .reset _ :: rest => dataPayload m rest
  | m, .delay _ :: rest => dataPayload m rest
  | .high, .bus bytes _ :: rest => bytes ++ dataPayload .high rest
  | .low, .bus _ _ :: rest => dataPayload .low rest

/-- Is the event a bus write? -/
def Event.isBus : Event → Bool
  | .bus _ _ => true
  | .line _ _ | .delay _ => false

/-! ## The micro-program of a request -/

/-- The directive an instruction is, if it is one. -/
def directiveOf : Instr → Option Directive
  | .displayOff => some .displayOff
  | .displayOn => some .displayOn
  | .setContrast c => some (.setContrast c)
  | .setMultiplexRatio m => some (.setMultiplexRatio m)
  | .setAddressingMode a => some (.setAddressingMode a)
  | .setSegmentRemap r => some (.setSegmentRemap r)
  | .setComScanDirection r => some (.setComScanDirection r)
  | .setColumnWindow s e => some (.setColumnWindow s e)
  | .setPageWindow s e => some (.setPageWindow s e)
  | .setPageStart p => some (.setPageStart p)
  | .setColumnStartLow n => some (.setColumnStartLow n)
  | .setColumnStartHigh n => some (.setColumnStartHigh n)
  | .other c ps => some (.other c ps)
  | .init | .resetSeq | .writeCommand _ | .writeData _ | .update | .setPixel _ _ _ | .clear | .bulkReplace _ | .fbRead _ =>
    none

/-- A program that needs `Ready`: empty in every other state (spec/10_state.md R31, spec/44_update.md R231). -/
def whenReady (prev : Session) (prog : List MicroOp) : List MicroOp :=
  match prev with
  | .ready => prog
  | .uninitialized | .resetting | .configuring | .faulted => []

/-- `expand(req, st)` (spec/10_state.md R31): the micro-program of an instruction accepted in `prev` with framebuffer `m`. -/
def expand (p : Params) (prev : Session) (m : Memory) (i : Instr) : List MicroOp :=
  match i with
  | .init => initProgram p
  | .resetSeq => resetSeqProgram p prev
  | .writeCommand byte => whenReady prev (writeCommandProgram p byte)
  | .writeData [] => []
  | .writeData (b :: rest) => whenReady prev (writeDataProgram p (b :: rest))
  | .update => whenReady prev (updateProgram p m)
  | .setPixel _ _ _ | .clear | .bulkReplace _ | .fbRead _ => []
  | .displayOff => whenReady prev (directiveProgram p .displayOff)
  | .displayOn => whenReady prev (directiveProgram p .displayOn)
  | .setContrast c => whenReady prev (directiveProgram p (.setContrast c))
  | .setMultiplexRatio r => whenReady prev (directiveProgram p (.setMultiplexRatio r))
  | .setAddressingMode a => whenReady prev (directiveProgram p (.setAddressingMode a))
  | .setSegmentRemap r => whenReady prev (directiveProgram p (.setSegmentRemap r))
  | .setComScanDirection r => whenReady prev (directiveProgram p (.setComScanDirection r))
  | .setColumnWindow s e => whenReady prev (directiveProgram p (.setColumnWindow s e))
  | .setPageWindow s e => whenReady prev (directiveProgram p (.setPageWindow s e))
  | .setPageStart q => whenReady prev (directiveProgram p (.setPageStart q))
  | .setColumnStartLow n => whenReady prev (directiveProgram p (.setColumnStartLow n))
  | .setColumnStartHigh n => whenReady prev (directiveProgram p (.setColumnStartHigh n))
  | .other c ps => whenReady prev (directiveProgram p (.other c ps))

/-- The session state after the micro-ops `ops`, all bus writes answered `Ok`, from `s`. -/
def stAfter (s : Session) : List MicroOp → Session
  | [] => s
  | .state x :: rest => stAfter x rest
  | .line _ _ :: rest => stAfter s rest
  | .wait _ :: rest => stAfter s rest
  | .tx _ :: rest => stAfter s rest

/-- The level of line `w` after the micro-ops `ops`, from `l`. -/
def lineAfter (w : Line) (l : Level) : List MicroOp → Level
  | [] => l
  | .line v k :: rest => lineAfter w (if v = w then k else l) rest
  | .wait _ :: rest => lineAfter w l rest
  | .tx _ :: rest => lineAfter w l rest
  | .state _ :: rest => lineAfter w l rest

/-- The events of the micro-ops `ops`, all bus writes answered `Ok`. -/
def okEvents : List MicroOp → List Event
  | [] => []
  | .line w l :: rest => .line w l :: okEvents rest
  | .wait d :: rest => .delay d :: okEvents rest
  | .tx bytes :: rest => .bus bytes .ok :: okEvents rest
  | .state _ :: rest => okEvents rest

/-! ## The invariant -/

/-- The session states in which the block can be idle (spec/10_state.md R25). -/
def Session.settled : Session → Bool
  | .uninitialized | .ready | .faulted => true
  | .resetting | .configuring => false

/-- An idle block (R215 (1), (5), R25, R46): select and reset deasserted, no transient session state, whole transactions only in
the trace. -/
structure IdleInv (s : State) : Prop where
  st     : s.st.settled = true
  sel    : s.sel = s.cfg.selDeassert
  rst    : s.rst = s.cfg.rstDeassert
  uprog  : s.uprog = []
  framed : WellFramed s.cfg s.trace

/-- A busy block at `upc = k` (R30, R31, R36): the micro-program is that of the latched request, and `st`, the lines and the trace
are where its first `k` micro-ops leave them. -/
structure BusyInv (k : Nat) (s : State) : Prop where
  prev   : s.stPrev.settled = true
  uprog  : s.uprog = expand s.cfg s.stPrev s.fb s.req
  range  : k < s.uprog.length
  st     : s.st = stAfter s.stPrev (s.uprog.take k)
  sel    : s.sel = lineAfter .select s.cfg.selDeassert (s.uprog.take k)
  rst    : s.rst = lineAfter .reset s.cfg.rstDeassert (s.uprog.take k)
  mode   : ∃ m, s.mode = lineAfter .mode m (s.uprog.take k)
  framed : ∃ t, WellFramed s.cfg t ∧ s.trace = t ++ okEvents (s.uprog.take k)

/-- The sequencer's invariant. -/
def SequencerInv (s : State) : Prop :=
  match s.upc with
  | .idle => IdleInv s
  | .running k => BusyInv k s

/-- Nothing but what a host can give (log entry 9): no directive waits to be issued on its own, and none runs. -/
structure HostLane (s : State) : Prop where
  inputs  : ∀ bytes, Input.directive bytes ∉ s.inbox
  request : ∀ k, s.upc = .running k → directiveOf s.req = none

end Sys2Proof.Machine
end

