-- ==== Sys2Proof/Certificates/Slice0/Obligations.lean ====
section
/-! DEFINITION. The statements for the provers. Each docstring names the rules of spec/ it rests on; a statement over all states
holds for every configuration, every framebuffer content and every answer of the transport. -/

open Sys2Proof Sys2Proof.Machine

/-! ## Encoding -/

/-- Words written out bit by bit from spec/30_encoding.md R101, R102 and R109 decode to what they stand for. -/
def Obligations.SampleImagesDecode : Prop :=
  decode (.request 0b00010000000000000000000000000000#32 []) = .ok .init ∧
  decode (.request 0b00110000000000000000000010101110#32 []) = .ok (.writeCommand 0xAE) ∧
  decode (.request 0b01000000000000000000000000000010#32 [0xFF, 0x00]) = .ok (.writeData [0xFF, 0x00]) ∧
  decode (.request 0b10000000000000010000101000000101#32 []) = .ok (.setPixel 5 10 true) ∧
  decode (.request 0b10110000000000000000001111111111#32 []) = .ok (.fbRead 1023) ∧
  decode (.directive [0b10101000#8, 0b00111111#8]) = .ok (.setMultiplexRatio 63) ∧
  decode (.directive [0b00100001#8, 0b00000000#8, 0b01111111#8]) = .ok (.setColumnWindow 0 ⟨127, by decide⟩) ∧
  decode (.directive [0b11001000#8]) = .ok (.setComScanDirection true)

/-- R102: a word selects a row exactly when `(w & mask) == match`. -/
def Obligations.RowSelectionFollowsMatchAndMask : Prop :=
  ∀ (w : Word) (r : RequestRow), selectRow w = some r ↔ w &&& r.mask = r.pattern

/-- Decode after encode, host requests (R101 to R104): every well-formed request, every operand value. -/
def Obligations.RequestsDecodeToThemselves : Prop :=
  ∀ i : Instr, directiveOf i = none → i.wf = true → decode (encode i) = .ok i

/-- Decode after encode, the named directives (R109); `Other` may spell a named directive's bytes. -/
def Obligations.DirectivesDecodeToThemselves : Prop :=
  ∀ d : Directive, (∀ c ps, d ≠ .other c ps) → decode (encode d.toInstr) = .ok d.toInstr

/-- Encode after decode: whatever the decoder reads is well formed and spells the image it was read from, `Other` included. -/
def Obligations.DecodedImagesEncodeBack : Prop :=
  ∀ (image : Image) (i : Instr), decode image = .ok i → encode i = image ∧ i.wf = true

/-! ## One step -/

/-- A step of an idle block runs the request its input word and payload stream decode to, past the word and the payload. -/
def Obligations.StepRunsTheDecodedRequest : Prop :=
  ∀ (s : State) (w : Word) (inputs : List Input) (i : Instr) (rest : List Byte),
    s.upc = .idle → s.inbox = .word w :: inputs → decodeRequest w s.plIn = .ok (i, rest) →
    step s = exec i { s with inbox := inputs, plIn := rest }

/-- A step of an idle block issues the directive placed at its input (the model's own lane, log entry 9). -/
def Obligations.StepIssuesThePlacedDirective : Prop :=
  ∀ (s : State) (bytes : List Byte) (inputs : List Input) (i : Instr),
    s.upc = .idle → s.inbox = .directive bytes :: inputs → decode (.directive bytes) = .ok i →
    step s = exec i { s with inbox := inputs }

/-- An opcode-table word placed for the next step is what the next step runs (log entry 18). -/
def Obligations.PlacedTableWordRunsNext : Prop :=
  ∀ (s : State) (nbits w : Nat) (i : Instr), decodeTableWord nbits w = some i →
    step (s.withFetchWord nbits w) = exec i { s with upc := .idle, uprog := [] }

/-- R105: an illegal request is answered `IllegalRequest`, takes no payload and changes no state but `res` (and the response), in
every session state: a word of no row, a `WRITE_DATA` word with `len = 0`, and that request asked for as an instruction, which is
the model's choice (log entry 25; `uprog`: log entry 28). -/
def Obligations.IllegalRequestChangesOnlyTheResult : Prop :=
  (∀ (s : State) (w : Word) (inputs : List Input), s.upc = .idle → s.inbox = .word w :: inputs →
    ((∀ r : RequestRow, w &&& r.mask ≠ r.pattern) ∨ w = 0x40000000#32) →
    step s = .next { s with inbox := inputs, uprog := [], res := .illegalRequest, rspValid := true, rspData := 0 }) ∧
  (∀ s : State, s.upc = .idle →
    exec (.writeData []) s = .next { s with uprog := [], res := .illegalRequest, rspValid := true, rspData := 0 })

/-- R52: after reset the block is idle and does nothing until the host issues a request; an idle block without input stays as it
is. -/
def Obligations.IdleBlockWaitsForAnInput : Prop :=
  (∀ p : Params, (State.resetWith p).upc = .idle ∧ (State.resetWith p).inbox = []) ∧
  ∀ s : State, s.upc = .idle → s.inbox = [] → step s = .next { s with rspValid := false }

/-- R42 and 93 U15: a payload that does not come whole stops the block, that of a `WRITE_DATA` and that of a `BULK_REPLACE`. The
fault is the model's choice (log entry 11). -/
def Obligations.MissingPayloadStopsTheBlock : Prop :=
  ∀ (s : State) (w : Word) (inputs : List Input), s.upc = .idle → s.inbox = .word w :: inputs →
    ((∃ n : BitVec 16, w = 0x4000#16 ++ n ∧ s.plIn.length < n.toNat) ∨ (w = 0xA0000000#32 ∧ s.plIn.length < 1024)) →
    step s = .fault .payloadStarved

/-- R31: `upc` moves on by one, or the request completes with `Ok` after its last micro-op. -/
def Obligations.AdvanceMovesOnOrCompletes : Prop :=
  ∀ (s : State) (k : Nat),
    (k + 1 < s.uprog.length → s.advance k = { s with upc := .running (k + 1) }) ∧
    (s.uprog.length ≤ k + 1 →
      s.advance k = { s with upc := .idle, uprog := [], res := .ok, rspValid := true, rspData := 0 })

/-- R210: `LINE w l` writes its register and records the event, also when the level is already held, and cannot fail. -/
def Obligations.LineMicroOpWritesItsRegister : Prop :=
  ∀ (s : State) (k : Nat) (l : Level), s.upc = .running k →
    (s.uprog[k]? = some (.line .select l) →
      step s = .next (State.advance k { s with sel := l, trace := s.trace ++ [.line .select l], rspValid := false })) ∧
    (s.uprog[k]? = some (.line .mode l) →
      step s = .next (State.advance k { s with mode := l, trace := s.trace ++ [.line .mode l], rspValid := false })) ∧
    (s.uprog[k]? = some (.line .reset l) →
      step s = .next (State.advance k { s with rst := l, trace := s.trace ++ [.line .reset l], rspValid := false }))

/-- R211 and R213: `WAIT d` records its delay and `STATE x` writes `st` and records nothing; neither can fail. -/
def Obligations.WaitAndStateMicroOpsTakeEffect : Prop :=
  ∀ (s : State) (k : Nat), s.upc = .running k →
    (∀ d, s.uprog[k]? = some (.wait d) →
      step s = .next (State.advance k { s with trace := s.trace ++ [.delay d], rspValid := false })) ∧
    (∀ x, s.uprog[k]? = some (.state x) → step s = .next (State.advance k { s with st := x, rspValid := false }))

/-- R212: a bus write answered `Ok`, by a listed answer or a free one (log entry 6), is recorded with its whole byte list, and the
block goes on. -/
def Obligations.AnsweredBusWriteIsRecorded : Prop :=
  ∀ (s : State) (k : Nat) (bytes : List Byte),
    s.upc = .running k → s.uprog[k]? = some (.tx bytes) → s.nextAnswer = .ok →
    step s = .next (State.advance k { s.dropAnswer with trace := s.trace ++ [.bus bytes .ok], rspValid := false })

/-- R216, the abort rule: whatever micro-program runs, a bus write answered `Fail`, by a listed answer or a free one, deasserts
select, leads to `Faulted`, answers `BusFailure` and drops the rest of the micro-program; the mode line and FB are not touched. -/
def Obligations.FailedBusWriteEntersFaulted : Prop :=
  ∀ (s : State) (k : Nat) (bytes : List Byte),
    s.upc = .running k → s.uprog[k]? = some (.tx bytes) → s.nextAnswer = .fail →
    step s = .next { s.dropAnswer with
      sel := s.cfg.selDeassert, st := .faulted, res := .busFailure, upc := .idle, uprog := [],
      trace := s.trace ++ [.bus bytes .fail, .line .select s.cfg.selDeassert],
      rspValid := true, rspData := 0 }

/-- R31, R218: a busy block takes no input, and its step leaves FB, the latches and the configuration alone. -/
def Obligations.BusyBlockTakesNoInput : Prop :=
  ∀ (s t : State) (k : Nat), s.upc = .running k → step s = .next t →
    t.inbox = s.inbox ∧ t.plIn = s.plIn ∧ t.fb = s.fb ∧ t.req = s.req ∧ t.stPrev = s.stPrev ∧ t.cfg = s.cfg ∧
    t.resets = s.resets

/-- R31 and 93 U1: no instruction is accepted while one runs. -/
def Obligations.NoInstructionIsAcceptedWhileBusy : Prop :=
  ∀ (i : Instr) (s : State) (k : Nat), s.upc = .running k → exec i s = .refused .busy

/-! ## Framebuffer requests -/

/-- R66 and R139: for in-range pixels the index is `(y div 8) * WIDTH + x`, which is `{y[5:3], x[6:0]}` and at most 10 bits; the
bit is `y mod 8`, which is `y[2:0]`; the mask has that one bit. -/
def Obligations.TranslatorIsPureWiring : Prop :=
  ∀ x y : Byte, x.toNat < WIDTH → y.toNat < HEIGHT →
    pixelIdx x.toNat y.toNat = y.toNat / 8 * 128 + x.toNat ∧ pixelBit y.toNat = y.toNat % 8 ∧
    pixelIdx x.toNat y.toNat = (y.extractLsb' 3 3 ++ x.extractLsb' 0 7).toNat ∧
    pixelIdx x.toNat y.toNat < FB_SIZE ∧
    pixelBit y.toNat = (y.extractLsb' 0 3).toNat ∧
    ∀ b : Nat, (pixelMask y.toNat).getLsbD b = decide (b = pixelBit y.toNat)

/-- R67 and R68: the translator is a bijection between the in-range pixels and the pairs (index, bit), with its inverse. -/
def Obligations.TranslatorIsABijection : Prop :=
  (∀ i b : Nat, i < FB_SIZE → b < 8 →
    pixelX i < WIDTH ∧ pixelY i b < HEIGHT ∧ pixelIdx (pixelX i) (pixelY i b) = i ∧ pixelBit (pixelY i b) = b) ∧
  (∀ x y : Nat, x < WIDTH → y < HEIGHT →
    pixelX (pixelIdx x y) = x ∧ pixelY (pixelIdx x y) (pixelBit y) = y ∧
    pageOf (pixelIdx x y) = y / PAGE_ROWS ∧ columnOf (pixelIdx x y) = x)

/-- R70: over all integers, `SET_PIXEL` stores exactly for pixels in bounds. -/
def Obligations.BoundsCheckOverAllIntegers : Prop :=
  ∀ (m : Memory) (x y : Int) (on : Bool),
    (setPixelIn m x y on).isSome = true ↔ (0 ≤ x ∧ x < 128 ∧ 0 ≤ y ∧ y < 64)

/-- R131: an in-range `SET_PIXEL` completes with `Ok`; its bit reads as asked, every other bit as before, and repeating it changes
nothing further. Nothing but FB, the latches, `res` and the response changes. -/
def Obligations.SetPixelWritesItsBit : Prop :=
  ∀ (s : State) (x y : Byte) (on : Bool) (i : FbIndex), s.upc = .idle → s.fb.wf = true →
    x.toNat < WIDTH → y.toNat < HEIGHT → i.val = y.toNat / 8 * 128 + x.toNat →
    ∃ m : Memory,
      exec (.setPixel x y on) s = .next { s with
        fb := m, req := .setPixel x y on, stPrev := s.st, uprog := [], res := .ok, rspValid := true, rspData := 0 } ∧
      (m.read i).getLsbD (y.toNat % 8) = on ∧
      (∀ (j : FbIndex) (b : Nat), b < 8 → (j ≠ i ∨ b ≠ y.toNat % 8) → (m.read j).getLsbD b = (s.fb.read j).getLsbD b) ∧
      setPixelIn m x.toNat y.toNat on = some m

/-- R132: an out-of-range `SET_PIXEL` answers `OutOfBounds`; FB, `st`, the lines and the trace are unmodified, and `on` does not
matter. -/
def Obligations.OutOfRangePixelChangesNothing : Prop :=
  ∀ (s : State) (x y : Byte) (on : Bool), s.upc = .idle → (WIDTH ≤ x.toNat ∨ HEIGHT ≤ y.toNat) →
    exec (.setPixel x y on) s = .next { s with
      req := .setPixel x y on, stPrev := s.st, uprog := [], res := .outOfBounds, rspValid := true, rspData := 0 }

/-- R134: `CLEAR` yields all-zero bytes, 1024 of them, regardless of prior content; nothing but FB, the latches, `res` and the
response changes. -/
def Obligations.ClearYieldsZeroBytes : Prop :=
  ∀ s : State, s.upc = .idle →
    ∃ m : Memory,
      exec .clear s = .next { s with
        fb := m, req := .clear, stPrev := s.st, uprog := [], res := .ok, rspValid := true, rspData := 0 } ∧
      m.bytes = List.replicate 1024 0 ∧ (∀ a, m.read a = 0) ∧ m.wf = true

/-- R135: `BULK_REPLACE` replaces every byte by the payload's; nothing but FB, the latches, `res` and the response changes. -/
def Obligations.BulkReplaceWritesThePayload : Prop :=
  ∀ (s : State) (payload : Vector Byte 1024), s.upc = .idle →
    ∃ m : Memory,
      exec (.bulkReplace payload) s = .next { s with
        fb := m, req := .bulkReplace payload, stPrev := s.st, uprog := [], res := .ok, rspValid := true, rspData := 0 } ∧
      m.bytes = payload.toList ∧ m.wf = true

/-- The one-step writes of the whole buffer are the loops of R133 and R135, and replacing the content by itself changes nothing. -/
def Obligations.WholeBufferWriteIsTheLoop : Prop :=
  ∀ (m : Memory) (f : FbIndex → Byte), m.wf = true →
    m.fill f = (List.finRange 1024).foldl (fun n a => n.write a (f a)) m ∧ m.fill m.read = m

/-- R137: `FB_READ` gives the byte of its index and changes nothing but the latches, `res` and the response. -/
def Obligations.FbReadGivesTheByte : Prop :=
  ∀ (s : State) (idx : BitVec 10) (a : FbIndex), s.upc = .idle → a.val = idx.toNat →
    exec (.fbRead idx) s = .next { s with
      req := .fbRead idx, stPrev := s.st, uprog := [], res := .ok, rspValid := true, rspData := s.fb.read a }

/-- R71: a step changes FB only where an idle block takes a `SET_PIXEL`, a `CLEAR` or a `BULK_REPLACE`, or a block reset. -/
def Obligations.OnlyMutatorsWriteTheFramebuffer : Prop :=
  ∀ s t : State, step s = .next t → t.fb ≠ s.fb →
    s.upc = .idle ∧
    (s.inbox.head? = some .blockReset ∨
     ∃ w i rest, s.inbox.head? = some (.word w) ∧ decodeRequest w s.plIn = .ok (i, rest) ∧
       ((∃ x y on, i = .setPixel x y on) ∨ i = .clear ∨ ∃ p, i = .bulkReplace p))

/-! ## INIT and RESET_SEQ -/

/-- R181, R184, R188: `INIT` is accepted by an idle block, and if every bus write is answered `Ok` it ends after its `9 + 4m`
micro-ops in `Ready` with `Ok`, having left the six events of the reset timing and one whole command transaction per frame of
`INIT_SEQ`. FB and the inputs are untouched. The answers are listed (log entry 6) and the waits end (log entry 7). -/
def Obligations.InitBringsTheBlockToReady : Prop :=
  ∀ (s : State) (rest : List BusAnswer), s.upc = .idle → s.cfg.wf = true →
    s.answers = List.replicate (cmdFrames s.cfg s.cfg.initSeq).length .ok ++ rest →
    ∃ a : State, exec .init s = .next a ∧ a.st = s.st ∧ a.upc = .running 0 ∧ a.trace = s.trace ∧ a.fb = s.fb ∧
      steps (9 + 4 * (cmdFrames s.cfg s.cfg.initSeq).length) a = .next { s with
        st := .ready, stPrev := s.st, sel := s.cfg.selDeassert, mode := .low, rst := s.cfg.rstDeassert,
        req := .init, uprog := [], upc := .idle, res := .ok, rspValid := true, rspData := 0,
        trace := s.trace ++ resetEvents s.cfg ++ (cmdFrames s.cfg s.cfg.initSeq).flatMap (txnEvents s.cfg .low .ok),
        answers := rest }

/-- R185: if the transport answers `Fail` to transaction `j` of `INIT`, select is deasserted, the block is `Faulted` with
`BusFailure`, and the later transactions are not issued. -/
def Obligations.InitFailureEndsInFaulted : Prop :=
  ∀ (s : State) (rest : List BusAnswer) (before after : List (List Byte)) (frame : List Byte), s.upc = .idle →
    cmdFrames s.cfg s.cfg.initSeq = before ++ frame :: after →
    s.answers = List.replicate before.length .ok ++ .fail :: rest →
    ∃ a : State, exec .init s = .next a ∧
      steps (8 + 4 * before.length + 3) a = .next { s with
        st := .faulted, stPrev := s.st, sel := s.cfg.selDeassert, mode := .low, rst := s.cfg.rstDeassert,
        req := .init, uprog := [], upc := .idle, res := .busFailure, rspValid := true, rspData := 0,
        trace := s.trace ++ resetEvents s.cfg ++ before.flatMap (txnEvents s.cfg .low .ok)
          ++ txnEvents s.cfg .low .fail frame,
        answers := rest }

/-- R190 to R192: `RESET_SEQ` is accepted by an idle block (in `Uninitialized`, `Ready` or `Faulted`, R25) and always ends with `Ok`
after the six events of the reset timing, without a bus write; from `Faulted` it ends in `Faulted`, otherwise where
`POST_RESET_STATE` says. -/
def Obligations.ResetSeqPulsesTheResetLine : Prop :=
  ∀ s : State, s.upc = .idle → s.st.settled = true →
    ∃ (a : State) (x : Session), exec .resetSeq s = .next a ∧
      steps 8 a = .next { s with
        st := x, stPrev := s.st, rst := s.cfg.rstDeassert, req := .resetSeq, uprog := [], upc := .idle, res := .ok,
        rspValid := true, rspData := 0, trace := s.trace ++ resetEvents s.cfg } ∧
      (∀ n, 1 ≤ n → n ≤ 7 → ∃ b : State, steps n a = .next b ∧ b.st = .resetting) ∧
      (s.st = .faulted → x = .faulted) ∧
      (s.st ≠ .faulted → s.cfg.postReset = .toUninitialized → x = .uninitialized) ∧
      (s.st ≠ .faulted → s.cfg.postReset = .keepPrevious → x = s.st)

/-- R181, R183 and R231: a sequence's transactions are those of its directives, one after the other, each as the directive
issued on its own would run it. -/
def Obligations.SequencesIssueTheirDirectivesInOrder : Prop :=
  ∀ (p : Params) (seq : List Directive), cmdTxns p (cmdFrames p seq) = seq.flatMap (directiveProgram p)

/-! ## The codec and the framing -/

/-- R151: a directive's encoding has `1 + n(d)` bytes whatever table the integrator gives, `n` fixed per kind. -/
def Obligations.CodecLengthsAreFixed : Prop :=
  ∀ (p : Params) (d : Directive), (codec p d).length = 1 + d.paramCount

/-- The default table as the rules write it (spec/30_encoding.md R109): with no entry of the integrator's. The byte values are
general knowledge (93 G1). -/
def Obligations.DefaultCodecBytes : Prop :=
  ∀ p : Params, p.codecTable = [] →
    codec p .displayOff = [0xAE] ∧ codec p .displayOn = [0xAF] ∧
    (∀ c, codec p (.setContrast c) = [0x81, c]) ∧
    (∀ m, codec p (.setMultiplexRatio m) = [0xA8, m.setWidth 8]) ∧
    codec p (.setAddressingMode .horizontal) = [0x20, 0] ∧ codec p (.setAddressingMode .vertical) = [0x20, 1] ∧
    codec p (.setAddressingMode .page) = [0x20, 2] ∧
    (∀ r, codec p (.setSegmentRemap r) = [0xA0 ||| (BitVec.ofBool r).setWidth 8]) ∧
    (∀ r, codec p (.setComScanDirection r) = [0xC0 ||| ((BitVec.ofBool r).setWidth 8 <<< 3)]) ∧
    (∀ b e, codec p (.setColumnWindow b e) = [0x21, b.setWidth 8, e.val.setWidth 8]) ∧
    (∀ b e, codec p (.setPageWindow b e) = [0x22, b.setWidth 8, e.val.setWidth 8]) ∧
    (∀ q, codec p (.setPageStart q) = [0xB0 ||| q.setWidth 8]) ∧
    (∀ n, codec p (.setColumnStartLow n) = [0x00 ||| n.setWidth 8]) ∧
    (∀ n, codec p (.setColumnStartHigh n) = [0x10 ||| n.setWidth 8]) ∧
    (∀ c ps, codec p (.other c ps) = c :: ps.toList)

/-- R217: both framings send the same bytes in the same order, `PerByte` one at a time, and no frame is empty. -/
def Obligations.FramesCarryTheCodecBytes : Prop :=
  ∀ (p : Params) (seq : List Directive),
    (cmdFrames p seq).flatten = seq.flatMap (codec p) ∧
    (p.cmdFraming = .perDirective → cmdFrames p seq = seq.map (codec p)) ∧
    (p.cmdFraming = .perByte → ∀ f ∈ cmdFrames p seq, f.length = 1) ∧
    (∀ f ∈ cmdFrames p seq, f ≠ [])

/-- R43: the bytes of a bus write are presented in order, `tx_last` on the final one and on no other. -/
def Obligations.TransportBeatsMarkTheLastByte : Prop :=
  ∀ bytes : List Byte,
    (beats bytes).map Prod.fst = bytes ∧
    ∀ k, k < bytes.length → ((beats bytes)[k]?).map Prod.snd = some (decide (k + 1 = bytes.length))

/-- A directive issued on its own (the model's lane, log entry 9) is accepted by an idle block in `Ready`; with every bus write
answered `Ok` it has sent its codec bytes in command transactions, and nothing else has changed. For the thirteen directives:
displayOff, displayOn, setContrast, setMultiplexRatio, setAddressingMode, setSegmentRemap, setComScanDirection, setColumnWindow,
setPageWindow, setPageStart, setColumnStartLow, setColumnStartHigh, other. -/
def Obligations.DirectiveSendsItsCommandTransactions : Prop :=
  ∀ (s : State) (d : Directive) (rest : List BusAnswer), s.upc = .idle → s.st = .ready →
    s.answers = List.replicate (cmdFrames s.cfg [d]).length .ok ++ rest →
    ∃ a : State, exec d.toInstr s = .next a ∧
      steps (4 * (cmdFrames s.cfg [d]).length) a = .next { s with
        stPrev := s.st, sel := s.cfg.selDeassert, mode := .low, req := d.toInstr, uprog := [], upc := .idle, res := .ok,
        rspValid := true, rspData := 0,
        trace := s.trace ++ (cmdFrames s.cfg [d]).flatMap (txnEvents s.cfg .low .ok), answers := rest }

/-- R219: `WRITE_COMMAND` in `Ready` is one command transaction of its byte; answered `Ok` it ends in `Ready`, answered `Fail` in
`Faulted`. -/
def Obligations.WriteCommandIsOneCommandTransaction : Prop :=
  ∀ (s : State) (byte : Byte) (r : BusAnswer), s.upc = .idle → s.st = .ready → s.nextAnswer = r →
    ∃ (a : State) (n : Nat), exec (.writeCommand byte) s = .next a ∧
      steps n a = .next { s.dropAnswer with
        st := if r = .ok then .ready else .faulted, stPrev := .ready, sel := s.cfg.selDeassert, mode := .low,
        req := .writeCommand byte, uprog := [], upc := .idle, res := if r = .ok then .ok else .busFailure,
        rspValid := true, rspData := 0, trace := s.trace ++ txnEvents s.cfg .low r [byte] }

/-- R221: `WRITE_DATA` in `Ready` is one data transaction of its whole payload, whatever `MAX_CHUNK`; answered `Ok` it ends in
`Ready`, answered `Fail` in `Faulted`. -/
def Obligations.WriteDataIsOneDataTransaction : Prop :=
  ∀ (s : State) (payload : List Byte) (r : BusAnswer), s.upc = .idle → s.st = .ready →
    payload ≠ [] → s.nextAnswer = r →
    ∃ (a : State) (n : Nat), exec (.writeData payload) s = .next a ∧
      steps n a = .next { s.dropAnswer with
        st := if r = .ok then .ready else .faulted, stPrev := .ready, sel := s.cfg.selDeassert, mode := .high,
        req := .writeData payload, uprog := [], upc := .idle, res := if r = .ok then .ok else .busFailure,
        rspValid := true, rspData := 0, trace := s.trace ++ txnEvents s.cfg .high r payload }

/-- R253: outside `Ready` the requests that need it are refused with `NotInitialized`: no event, no state change but the latches
(log entry 10), `res` and the response. So is a directive of the model's own lane (log entry 9). -/
def Obligations.GatedRequestsAreRefusedOutsideReady : Prop :=
  ∀ (s : State) (i : Instr), s.upc = .idle → s.st ≠ .ready →
    (i = .update ∨ (∃ b, i = .writeCommand b) ∨ (∃ p, p ≠ [] ∧ i = .writeData p) ∨ ∃ d : Directive, i = d.toInstr) →
    exec i s = .next { s with
      req := i, stPrev := s.st, uprog := [], res := .notInitialized, rspValid := true, rspData := 0 }

/-- R221: a `WRITE_DATA` refused outside `Ready` still takes its payload from the stream and drops it. -/
def Obligations.RefusedWriteDataDropsItsPayload : Prop :=
  ∀ (s : State) (payload rest : List Byte) (inputs : List Input), s.upc = .idle → s.st ≠ .ready →
    (Instr.writeData payload).wf = true →
    s.inbox = .word (0x4000#16 ++ BitVec.ofNat 16 payload.length) :: inputs → s.plIn = payload ++ rest →
    step s = .next { s with
      inbox := inputs, plIn := rest, req := .writeData payload, stPrev := s.st, uprog := [], res := .notInitialized,
      rspValid := true, rspData := 0 }

/-! ## UPDATE -/

/-- R234: the chunks of the buffer. -/
def Obligations.ChunksPartitionTheBuffer : Prop :=
  ∀ bytes : List Byte, bytes.length = 1024 →
    chunks none bytes = [bytes] ∧
    (∀ m, 1024 ≤ m → chunks (some m) bytes = [bytes]) ∧
    (∀ m, 1 ≤ m → (chunks (some m) bytes).flatten = bytes ∧
      (∀ c ∈ chunks (some m) bytes, c ≠ [] ∧ c.length ≤ m)) ∧
    (∀ m, 1 ≤ m → m ≤ 1023 →
      (chunks (some m) bytes).length = (1024 + m - 1) / m ∧
      ∀ j, j + 1 < (1024 + m - 1) / m → ((chunks (some m) bytes)[j]?).map List.length = some m)

/-- R231, R233, R235: `UPDATE` in `Ready` with every bus write answered `Ok` issues the window transactions, then the data
transactions of the chunks, and ends in `Ready` with FB unchanged and the mode line `High`. The answers are listed (log entry 6). -/
def Obligations.UpdateSendsTheWindowThenTheFrame : Prop :=
  ∀ (s : State) (rest : List BusAnswer), s.upc = .idle → s.st = .ready → s.cfg.wf = true →
    s.answers = List.replicate (updateTxns s.cfg s.fb).length .ok ++ rest →
    ∃ a : State, exec .update s = .next a ∧
      steps (4 * (updateTxns s.cfg s.fb).length) a = .next { s with
        stPrev := .ready, sel := s.cfg.selDeassert, mode := .high, req := .update, uprog := [], upc := .idle, res := .ok,
        rspValid := true, rspData := 0, trace := s.trace ++ okTxns s.cfg (updateTxns s.cfg s.fb), answers := rest }

/-- R237: for every successful `UPDATE`, the bytes sent with the mode line `High` are the 1024 bytes FB held at acceptance.
The answers are listed (log entry 6). -/
def Obligations.UpdatePayloadIsTheFramebuffer : Prop :=
  ∀ (s : State) (rest : List BusAnswer), s.upc = .idle → s.st = .ready → s.cfg.wf = true →
    s.answers = List.replicate (updateTxns s.cfg s.fb).length .ok ++ rest →
    ∃ (a t : State) (events : List Event) (n : Nat), exec .update s = .next a ∧ steps n a = .next t ∧ t.upc = .idle ∧ t.res = .ok ∧
      t.trace = s.trace ++ events ∧ ∀ m, dataPayload m events = (List.finRange 1024).map s.fb.read

/-- R236: the first bus write of an `UPDATE` that is answered `Fail` ends it in `Faulted` with `BusFailure`; the later
transactions are not issued and FB is unchanged. -/
def Obligations.UpdateFailureEndsInFaulted : Prop :=
  ∀ (s : State) (rest : List BusAnswer) (before after : List (Level × List Byte)) (m : Level) (bytes : List Byte),
    s.upc = .idle → s.st = .ready →
    updateTxns s.cfg s.fb = before ++ (m, bytes) :: after →
    s.answers = List.replicate before.length .ok ++ .fail :: rest →
    ∃ a : State, exec .update s = .next a ∧
      steps (4 * before.length + 3) a = .next { s with
        st := .faulted, stPrev := .ready, sel := s.cfg.selDeassert, mode := m, req := .update, uprog := [], upc := .idle,
        res := .busFailure, rspValid := true, rspData := 0,
        trace := s.trace ++ okTxns s.cfg before ++ txnEvents s.cfg m .fail bytes, answers := rest }

/-! ## Reset -/

/-- R46, R47, R49: the reset values the spec gives, for every configuration. -/
def Obligations.ResetValues : Prop :=
  ∀ p : Params,
    (State.resetWith p).sel = p.selDeassert ∧ (State.resetWith p).mode = .low ∧ (State.resetWith p).rst = p.rstDeassert ∧
    (State.resetWith p).st = .uninitialized ∧ (State.resetWith p).stPrev = .uninitialized ∧
    (State.resetWith p).upc = .idle ∧ (State.resetWith p).res = .ok

/-- R50: the outputs right after reset. -/
def Obligations.ResetOutputs : Prop :=
  ∀ p : Params,
    (ports (State.resetWith p)).reqReady = true ∧ (ports (State.resetWith p)).plReady = false ∧
    (ports (State.resetWith p)).rspValid = false ∧ (ports (State.resetWith p)).busy = false ∧
    (ports (State.resetWith p)).stOut = 0 ∧ (ports (State.resetWith p)).txValid = false ∧
    (ports (State.resetWith p)).dlyStart = false ∧
    (ports (State.resetWith p)).selO = levelBit p.selDeassert ∧ (ports (State.resetWith p)).modeO = 0 ∧
    (ports (State.resetWith p)).rstO = levelBit p.rstDeassert

/-- R45, R40, R290: a block reset of an idle block gives the registers their reset values and sends nothing to the display: the
trace stands and the configuration too. -/
def Obligations.BlockResetRestoresTheRegisters : Prop :=
  ∀ (s : State) (inputs : List Input), s.upc = .idle → s.inbox = .blockReset :: inputs →
    ∃ t : State, step s = .next t ∧ t.cfg = s.cfg ∧ t.trace = s.trace ∧ t.inbox = inputs ∧ t.answers = s.answers ∧
      t.st = .uninitialized ∧ t.stPrev = .uninitialized ∧ t.upc = .idle ∧ t.res = .ok ∧
      t.sel = s.cfg.selDeassert ∧ t.mode = .low ∧ t.rst = s.cfg.rstDeassert ∧ t.fb.wf = true

/-! ## Invariants and whole-machine rules -/

/-- Every step keeps the framebuffer in canonical form, and never writes the configuration (R27, R34). -/
def Obligations.StepKeepsTheFramebufferCanonical : Prop :=
  ∀ s t : State, s.fb.wf = true → step s = .next t → t.fb.wf = true ∧ t.cfg = s.cfg

/-- The invariants hold right after reset, and the configuration of `State.reset` is well formed. -/
def Obligations.ResetMeetsTheInvariants : Prop :=
  (∀ p : Params, (State.resetWith p).fb.wf = true ∧ SequencerInv (State.resetWith p) ∧ HostLane (State.resetWith p)) ∧
  State.reset.cfg.wf = true

/-- R215, R31, R25: every step keeps the sequencer's invariant. -/
def Obligations.StepKeepsTheSequencerInvariant : Prop :=
  ∀ s t : State, SequencerInv s → step s = .next t → SequencerInv t

/-- Where the host's inputs hold no directive placed on its own (log entry 9), no step brings one: what runs is a host request, and
the cases of the statements below that name a directive do not arise. -/
def Obligations.StepKeepsTheHostLane : Prop :=
  ∀ s t : State, HostLane s → step s = .next t → HostLane t

/-- R215 (3): in the trace of every state of the invariant, each bus write is immediately preceded by the mode write, that by the
assertion of select, and immediately followed by its deassertion, whatever the bus answered; where the bus write is the last
event, the deassertion is the very micro-op that runs next. -/
def Obligations.EveryBusWriteIsBracketed : Prop :=
  ∀ s : State, SequencerInv s → ∀ (i : Nat) (bytes : List Byte) (r : BusAnswer),
    s.trace[i]? = some (.bus bytes r) →
    2 ≤ i ∧ s.trace[i - 2]? = some (.line .select s.cfg.selAssert) ∧ (∃ m, s.trace[i - 1]? = some (.line .mode m)) ∧
    (s.trace[i + 1]? = some (.line .select s.cfg.selDeassert) ∨
     (i + 1 = s.trace.length ∧ ∃ k, s.upc = .running k ∧ s.uprog[k]? = some (.line .select s.cfg.selDeassert)))

/-- R193, R298, R299: in the trace of every state of the invariant, between a write of the reset line and any later bus write lies
a delay of at least `T_SETTLE_MIN`, and between an assertion of the reset line and a later deassertion one of at least
`T_PULSE_MIN`. -/
def Obligations.ResetTimingIsHonoured : Prop :=
  ∀ s : State, SequencerInv s → s.cfg.wf = true → ∀ i j : Nat, i < j →
    ((∃ l, s.trace[i]? = some (.line .reset l)) → (∃ bytes r, s.trace[j]? = some (.bus bytes r)) →
      ∃ k d, i < k ∧ k < j ∧ s.trace[k]? = some (.delay d) ∧ s.cfg.tSettleMin ≤ d) ∧
    (s.trace[i]? = some (.line .reset s.cfg.rstAssert) → s.trace[j]? = some (.line .reset s.cfg.rstDeassert) →
      ∃ k d, i < k ∧ k < j ∧ s.trace[k]? = some (.delay d) ∧ s.cfg.tPulseMin ≤ d)

/-- R215 (1), (2), (5) and R258: when a bus write runs, select is asserted, the reset line is deasserted, the mode line is `High`
exactly for the data of `WRITE_DATA` and `UPDATE`, and the session state is `Configuring` (an `INIT`) or `Ready`. The last case is
the model's own lane (log entry 9). -/
def Obligations.BusWritesHappenSelectedInReadyOrConfiguring : Prop :=
  ∀ (s : State) (k : Nat) (bytes : List Byte), SequencerInv s → s.upc = .running k →
    s.uprog[k]? = some (.tx bytes) →
    s.sel = s.cfg.selAssert ∧ s.rst = s.cfg.rstDeassert ∧
    ((s.st = .configuring ∧ s.req = .init ∧ s.mode = .low) ∨
     (s.st = .ready ∧ (∃ b, s.req = .writeCommand b ∧ bytes = [b]) ∧ s.mode = .low) ∨
     (s.st = .ready ∧ s.req = .writeData bytes ∧ s.mode = .high) ∨
     (s.st = .ready ∧ s.req = .update ∧ (s.mode, bytes) ∈ updateTxns s.cfg s.fb) ∨
     (s.st = .ready ∧ s.mode = .low ∧ ∃ d : Directive, s.req = d.toInstr ∧ bytes ∈ cmdFrames s.cfg [d]))

/-- R25: the only changes of `st` that a step makes, a block reset apart. Ready to Faulted is also a failed bus write of the model's
own lane (log entry 9). -/
def Obligations.SessionStateChangesAlongTheTable : Prop :=
  ∀ s t : State, SequencerInv s → step s = .next t → t.st ≠ s.st →
    (s.upc = .idle ∧ s.inbox.head? = some .blockReset ∧ t.st = .uninitialized) ∨
    (s.st.settled = true ∧ t.st = .resetting ∧ (s.req = .init ∨ s.req = .resetSeq)) ∨
    (s.st = .resetting ∧ t.st = .configuring ∧ s.req = .init) ∨
    (s.st = .configuring ∧ t.st = .ready ∧ s.req = .init ∧ t.upc = .idle ∧ t.res = .ok) ∨
    (s.st = .configuring ∧ t.st = .faulted ∧ s.req = .init ∧ t.res = .busFailure) ∨
    (s.st = .resetting ∧ t.st.settled = true ∧ s.req = .resetSeq ∧ t.upc = .idle ∧ t.res = .ok) ∨
    (s.st = .ready ∧ t.st = .faulted ∧ t.res = .busFailure ∧
      (s.req = .update ∨ (∃ b, s.req = .writeCommand b) ∨ (∃ p, s.req = .writeData p) ∨ ∃ d : Directive, s.req = d.toInstr))

/-- R195, R259: a request accepted in `Faulted` ends outside `Faulted` only if it is an `INIT` that returned `Ok`, and then in
`Ready`; accepting one changes no session state. -/
def Obligations.OnlyASuccessfulInitLeavesFaulted : Prop :=
  (∀ s t : State, ∀ k, SequencerInv s → s.upc = .running k → s.stPrev = .faulted → step s = .next t → t.upc = .idle →
    t.st ≠ .faulted → s.req = .init ∧ t.res = .ok ∧ t.st = .ready) ∧
  (∀ (i : Instr) (s t : State), exec i s = .next t → t.st = s.st)

/-- R31, R42, R218, R310: a busy block, whatever the transport answers, comes to rest within the micro-ops it has left, and gives
its one response there and not before. That every bus write is answered is log entry 6, that every wait ends log entry 7. -/
def Obligations.EveryRequestEndsWithOneResponse : Prop :=
  ∀ (s : State) (k : Nat), s.upc = .running k → k < s.uprog.length →
    ∃ (n : Nat) (t : State), 0 < n ∧ n ≤ s.uprog.length - k ∧ steps n s = .next t ∧ t.upc = .idle ∧ t.rspValid = true ∧
      ∀ m, 0 < m → m < n → ∃ u : State, steps m s = .next u ∧ u.rspValid = false ∧ ∃ j, u.upc = .running j

/-- R32: no rule reads `res`, so the result of an earlier request has no effect on a later step but through `res` itself. -/
def Obligations.ResultCodeInfluencesNothing : Prop :=
  ∀ (s t : State) (r : ResultCode), step s = .next t → ∃ r', step { s with res := r } = .next { t with res := r' }

/-- R28: no rule's outcome depends on the line registers. -/
def Obligations.LineRegistersInfluenceNothing : Prop :=
  ∀ (s t : State) (a b c : Level), step s = .next t →
    ∃ a' b' c', step { s with sel := a, mode := b, rst := c } = .next { t with sel := a', mode := b', rst := c' }
end

