-- ==== Sys2Proof/Laws/Decode.lean ====
section
/-! SUPPORT. What the decoders can answer: a request word and its payload, and the two kinds of instruction. -/

namespace Sys2Proof

open Sys2Proof.Machine

/-- The inversion lemma of `decodeRequest`. -/
theorem decodeRequest_ok {w : Word} {pl rest : List Byte} {i : Instr} (h : decodeRequest w pl = .ok (i, rest)) :
    ∃ r, selectRow w = some r ∧ ¬ (r = .writeData ∧ lenField w = 0) ∧ payloadLength r w ≤ pl.length ∧
      i = assemble r w (pl.take (payloadLength r w)) ∧ rest = pl.drop (payloadLength r w) := by
  unfold decodeRequest at h
  split at h
  · cases h
  · rename_i r hr
    split at h
    · cases h
    · split at h
      · cases h
      · cases h; exact ⟨r, hr, by assumption, by omega, rfl, rfl⟩

/-- A request word never spells a directive. -/
theorem decodeRequest_host {w : Word} {pl rest : List Byte} {i : Instr} (h : decodeRequest w pl = .ok (i, rest)) :
    directiveOf i = none := by
  obtain ⟨r, -, -, -, rfl, -⟩ := decodeRequest_ok h
  cases r <;> rfl

/-- A directive's byte list never spells a host request. -/
theorem decodeDirective_directive {bytes : List Byte} {i : Instr} (h : decodeDirective bytes = .ok i) :
    ∃ d, directiveOf i = some d := by
  unfold decodeDirective at h
  split at h <;> cases h
  · unfold decodeDirective1; repeat' split
    all_goals exact ⟨_, rfl⟩
  · unfold decodeDirective2; repeat' split
    all_goals exact ⟨_, rfl⟩
  · unfold decodeDirective3; repeat' split
    all_goals exact ⟨_, rfl⟩

/-- A payload that is there is taken, whatever follows it in the stream. -/
theorem decodeRequest_append {w : Word} {pl : List Byte} {i : Instr} (more : List Byte) (h : decodeRequest w pl = .ok (i, [])) :
    decodeRequest w (pl ++ more) = .ok (i, more) := by
  obtain ⟨r, hr, hz, hl, hi, hrest⟩ := decodeRequest_ok h
  have hlen : pl.length = payloadLength r w := by
    have := List.drop_eq_nil_iff.1 hrest.symm
    omega
  simp only [decodeRequest, hr, if_neg hz, List.length_append]
  rw [if_neg (by omega), hi, ← hlen]
  simp

end Sys2Proof
end

