-- ==== Sys2Proof/Laws/Memory.lean ====
section
/-! SUPPORT. The laws of the framebuffer: a read after a write, the canonical form, and that two framebuffers in canonical form
that read the same are the same. -/

namespace Sys2Proof.Machine

theorem lookupCell_insertCell (a : Nat) (v : Byte) (cells : List Host.Cell) (b : Nat) :
    lookupCell (insertCell a v cells) b = if a = b then some v else lookupCell cells b := by
  induction cells with
  | nil => simp [insertCell, lookupCell]
  | cons c rest ih =>
    obtain ⟨k, w⟩ := c
    simp only [insertCell]
    split
    · simp [lookupCell]
    · split
      · subst_vars; simp only [lookupCell]; split <;> rfl
      · simp only [lookupCell, ih]; split <;> split <;> simp_all

/-- Listed addresses are at least the bound below which `cellsOk` was checked. -/
theorem lookupCell_below {init : Vector Byte 1024} {lo : Nat} {cells : List Host.Cell} (h : cellsOk init lo cells = true) {a : Nat}
    (ha : a < lo) : lookupCell cells a = none := by
  induction cells generalizing lo with
  | nil => rfl
  | cons c rest ih =>
    obtain ⟨k, w⟩ := c
    simp only [cellsOk, Bool.and_eq_true, decide_eq_true_eq] at h
    simp only [lookupCell, if_neg (show k ≠ a by omega)]
    exact ih h.2 (by omega)

theorem lookupCell_eraseCell {init : Vector Byte 1024} {lo : Nat} {cells : List Host.Cell} (h : cellsOk init lo cells = true) (a b : Nat) :
    lookupCell (eraseCell a cells) b = if a = b then none else lookupCell cells b := by
  induction cells generalizing lo with
  | nil => simp [eraseCell, lookupCell]
  | cons c rest ih =>
    obtain ⟨k, w⟩ := c
    simp only [cellsOk, Bool.and_eq_true, decide_eq_true_eq] at h
    simp only [eraseCell]
    split
    · subst_vars
      by_cases hb : k = b
      · subst hb; simp [lookupCell_below h.2 (Nat.lt_succ_self k)]
      · simp [lookupCell, hb]
    · simp only [lookupCell, ih h.2]; split <;> split <;> simp_all

theorem cellsOk_mono {init : Vector Byte 1024} {lo lo' : Nat} {cells : List Host.Cell} (hl : lo' ≤ lo) (h : cellsOk init lo cells = true) :
    cellsOk init lo' cells = true := by
  cases cells with
  | nil => rfl
  | cons c rest =>
    obtain ⟨k, w⟩ := c
    simp only [cellsOk, Bool.and_eq_true, decide_eq_true_eq] at h ⊢
    exact ⟨⟨by omega, h.1.2⟩, h.2⟩

theorem cellsOk_insertCell {init : Vector Byte 1024} {lo : Nat} {cells : List Host.Cell} (h : cellsOk init lo cells = true) {a : FbIndex}
    (ha : lo ≤ a.val) {v : Byte} (hv : v ≠ init.get a) : cellsOk init lo (insertCell a.val v cells) = true := by
  induction cells generalizing lo with
  | nil => simp [insertCell, cellsOk, ha, hv]
  | cons c rest ih =>
    obtain ⟨k, w⟩ := c
    have h0 := h
    simp only [cellsOk, Bool.and_eq_true, decide_eq_true_eq] at h
    simp only [insertCell]
    split
    · rename_i hk
      have : cellsOk init (a.val + 1) ((k, w) :: rest) = true := by
        simp only [cellsOk, Bool.and_eq_true, decide_eq_true_eq]
        exact ⟨⟨by omega, h.1.2⟩, h.2⟩
      simp [cellsOk, ha, hv]
      simpa [cellsOk] using this
    · split
      · subst_vars; simp [cellsOk, ha, hv, h.2]
      · simp only [cellsOk, Bool.and_eq_true, decide_eq_true_eq]
        exact ⟨h.1, ih h.2 (by omega)⟩

theorem cellsOk_eraseCell {init : Vector Byte 1024} {lo : Nat} {cells : List Host.Cell} (h : cellsOk init lo cells = true) (a : Nat) :
    cellsOk init lo (eraseCell a cells) = true := by
  induction cells generalizing lo with
  | nil => rfl
  | cons c rest ih =>
    obtain ⟨k, w⟩ := c
    simp only [cellsOk, Bool.and_eq_true, decide_eq_true_eq] at h
    simp only [eraseCell]
    split
    · exact cellsOk_mono (by omega) h.2
    · simp only [cellsOk, Bool.and_eq_true, decide_eq_true_eq]
      exact ⟨h.1, ih h.2⟩

theorem allIndices_rising : allIndices.Pairwise (· < ·) := List.pairwise_lt_finRange 1024

@[simp] theorem mem_allIndices (a : FbIndex) : a ∈ allIndices := List.mem_finRange a

@[simp] theorem allIndices_length : allIndices.length = 1024 := List.length_finRange

@[simp] theorem Memory.write_init (m : Memory) (a : FbIndex) (v : Byte) : (m.write a v).init = m.init := rfl
@[simp] theorem Memory.fill_init (m : Memory) (f : FbIndex → Byte) : (m.fill f).init = m.init := by
  simp only [Memory.fill]
theorem Memory.fill_cells (m : Memory) (f : FbIndex → Byte) :
    (m.fill f).cells = allIndices.filterMap (fun a => if f a = m.init.get a then none else some (a.val, f a)) := by
  simp only [Memory.fill]
@[simp] theorem Memory.write_unlisted (m : Memory) (a : FbIndex) (v : Byte) (b : FbIndex) :
    (m.write a v).unlisted b = m.unlisted b := by simp only [Memory.unlisted, Memory.write_init]
@[simp] theorem Memory.fill_unlisted (m : Memory) (f : FbIndex → Byte) (b : FbIndex) :
    (m.fill f).unlisted b = m.unlisted b := by simp only [Memory.unlisted, Memory.fill_init]

/-- `MemWrite` keeps the canonical form. -/
theorem Memory.write_wf {m : Memory} (h : m.wf = true) (a : FbIndex) (v : Byte) : (m.write a v).wf = true := by
  unfold Memory.wf at *
  simp only [Memory.write, Memory.unlisted]
  split
  · exact cellsOk_eraseCell h _
  · rename_i hv; exact cellsOk_insertCell h (Nat.zero_le _) hv

/-- `MemRead` after `MemWrite` (spec/20_memory.md R64, R65). -/
theorem Memory.read_write {m : Memory} (h : m.wf = true) (a : FbIndex) (v : Byte) (b : FbIndex) :
    (m.write a v).read b = if a = b then v else m.read b := by
  unfold Memory.wf at h
  simp only [Memory.read, Memory.write_unlisted]
  simp only [Memory.write, Memory.unlisted]
  by_cases hab : a = b
  · subst hab
    split
    · rename_i hv; simp [lookupCell_eraseCell h, hv]
    · simp [lookupCell_insertCell]
  · have hne : a.val ≠ b.val := fun e => hab (Fin.ext e)
    split <;> simp [lookupCell_eraseCell h, lookupCell_insertCell, hne]

/-- The cells of a fill over a list of addresses. -/
theorem cellsOk_filterMap (init : Vector Byte 1024) (f : FbIndex → Byte) {l : List FbIndex} {lo : Nat}
    (hs : l.Pairwise (· < ·)) (hl : ∀ a ∈ l, lo ≤ a.val) :
    cellsOk init lo (l.filterMap (fun a => if f a = init.get a then none else some (a.val, f a))) = true := by
  induction l generalizing lo with
  | nil => rfl
  | cons a rest ih =>
    rw [List.pairwise_cons] at hs
    have hrest := ih (lo := a.val + 1) hs.2 (fun b hb => hs.1 b hb)
    have ha := hl a (by simp)
    by_cases hf : f a = init.get a
    · rw [List.filterMap_cons_none (by simp [hf])]
      exact cellsOk_mono (by omega) hrest
    · rw [List.filterMap_cons_some (b := (a.val, f a)) (by simp [hf])]
      simp only [cellsOk, Bool.and_eq_true, decide_eq_true_eq]
      exact ⟨⟨ha, by simp [hf]⟩, hrest⟩

theorem lookupCell_filterMap_none (init : Vector Byte 1024) (f : FbIndex → Byte) (l : List FbIndex) {b : FbIndex}
    (h : f b = init.get b) :
    lookupCell (l.filterMap (fun a => if f a = init.get a then none else some (a.val, f a))) b.val = none := by
  induction l with
  | nil => rfl
  | cons a rest ih =>
    by_cases hf : f a = init.get a
    · rw [List.filterMap_cons_none (by simp [hf]), ih]
    · rw [List.filterMap_cons_some (b := (a.val, f a)) (by simp [hf])]
      have hab : a.val ≠ b.val := fun e => hf (by rw [Fin.ext e]; exact h)
      simp only [lookupCell, if_neg hab, ih]

theorem lookupCell_filterMap_some (init : Vector Byte 1024) (f : FbIndex → Byte) {l : List FbIndex} {b : FbIndex}
    (hb : b ∈ l) (h : f b ≠ init.get b) :
    lookupCell (l.filterMap (fun a => if f a = init.get a then none else some (a.val, f a))) b.val = some (f b) := by
  induction l with
  | nil => simp at hb
  | cons a rest ih =>
    by_cases hf : f a = init.get a
    · rw [List.filterMap_cons_none (by simp [hf])]
      exact ih ((List.mem_cons.1 hb).resolve_left (fun e => h (by rw [e]; exact hf)))
    · rw [List.filterMap_cons_some (b := (a.val, f a)) (by simp [hf])]
      simp only [lookupCell]
      by_cases hab : a = b
      · subst hab; simp
      · rw [if_neg (fun e => hab (Fin.ext e))]
        exact ih ((List.mem_cons.1 hb).resolve_left (Ne.symm hab))

/-- A fill is in canonical form, whatever was there. -/
theorem Memory.fill_wf (m : Memory) (f : FbIndex → Byte) : (m.fill f).wf = true := by
  rw [Memory.wf, Memory.fill_init, Memory.fill_cells]
  exact cellsOk_filterMap m.init f allIndices_rising (fun _ _ => Nat.zero_le _)

/-- Every byte of a filled framebuffer. -/
@[simp] theorem Memory.read_fill (m : Memory) (f : FbIndex → Byte) (a : FbIndex) : (m.fill f).read a = f a := by
  simp only [Memory.read, Memory.fill_unlisted]
  simp only [Memory.fill, Memory.unlisted]
  by_cases h : f a = m.init.get a
  · have e := lookupCell_filterMap_none m.init f allIndices h
    rw [e, h, Option.getD_none]
  · have e := lookupCell_filterMap_some m.init f (mem_allIndices a) h
    rw [e, Option.getD_some]

theorem lookupCell_head {init : Vector Byte 1024} {lo : Nat} {cells : List Host.Cell} (h : cellsOk init lo cells = true) {a : FbIndex} {v : Byte}
    (hl : lookupCell cells a.val = some v) : v ≠ init.get a := by
  induction cells generalizing lo with
  | nil => simp [lookupCell] at hl
  | cons c rest ih =>
    obtain ⟨k, w⟩ := c
    simp only [cellsOk, Bool.and_eq_true, decide_eq_true_eq] at h
    simp only [lookupCell] at hl
    split at hl
    · subst_vars; have := h.1.2; simp_all
    · exact ih h.2 hl

/-- The keys of a canonical list lie in the framebuffer. -/
theorem lookupCell_range {init : Vector Byte 1024} {lo : Nat} {cells : List Host.Cell} (h : cellsOk init lo cells = true) {a : Nat}
    (ha : 1024 ≤ a) : lookupCell cells a = none := by
  induction cells generalizing lo with
  | nil => rfl
  | cons c rest ih =>
    obtain ⟨k, w⟩ := c
    simp only [cellsOk, Bool.and_eq_true] at h
    have hk : k < 1024 := by
      by_contra hk
      simp [hk] at h
    simp only [lookupCell, if_neg (show k ≠ a by omega)]
    exact ih h.2

theorem cells_ext {init : Vector Byte 1024} {lo lo' : Nat} {c c' : List Host.Cell} (h : cellsOk init lo c = true) (h' : cellsOk init lo' c' = true)
    (he : ∀ a, lookupCell c a = lookupCell c' a) : c = c' := by
  induction c generalizing lo lo' c' with
  | nil =>
    cases c' with
    | nil => rfl
    | cons x rest' => obtain ⟨k, v⟩ := x; have := he k; simp [lookupCell] at this
  | cons x rest ih =>
    obtain ⟨k, v⟩ := x
    cases c' with
    | nil => have := he k; simp [lookupCell] at this
    | cons y rest' =>
      obtain ⟨k', v'⟩ := y
      have hc := h; have hc' := h'
      simp only [cellsOk, Bool.and_eq_true, decide_eq_true_eq] at h h'
      have hkk : k = k' := by
        have e1 := he k; have e2 := he k'
        simp only [lookupCell, if_true] at e1 e2
        rcases Nat.lt_trichotomy k k' with hlt | heq | hgt
        · rw [if_neg (by omega), lookupCell_below h'.2 (by omega)] at e1; simp at e1
        · exact heq
        · rw [if_neg (by omega), lookupCell_below h.2 (by omega)] at e2; simp at e2
      subst hkk
      have hv : v = v' := by have := he k; simpa [lookupCell] using this
      subst hv
      congr 1
      refine ih h.2 h'.2 (fun a => ?_)
      have := he a
      simp only [lookupCell] at this
      by_cases ha : k = a
      · subst ha; rw [lookupCell_below h.2 (by omega), lookupCell_below h'.2 (by omega)]
      · simpa [ha] using this

/-- Two framebuffers in canonical form over the same free content that read the same are the same data. -/
theorem Memory.ext_read {m m' : Memory} (h : m.wf = true) (h' : m'.wf = true) (hi : m.init = m'.init)
    (hr : ∀ a, m.read a = m'.read a) : m = m' := by
  obtain ⟨i, c⟩ := m
  obtain ⟨i', c'⟩ := m'
  simp only at hi
  subst hi
  congr 1
  unfold Memory.wf at h h'
  refine cells_ext h h' (fun a => ?_)
  by_cases ha : a < 1024
  · have e := hr ⟨a, ha⟩
    simp only [Memory.read, Memory.unlisted] at e
    cases hl : lookupCell c a with
    | none =>
      cases hl' : lookupCell c' a with
      | none => rfl
      | some v' =>
        have := lookupCell_head h' (a := ⟨a, ha⟩) hl'
        simp [hl, hl'] at e
        exact absurd e.symm this
    | some v =>
      cases hl' : lookupCell c' a with
      | none =>
        have := lookupCell_head h (a := ⟨a, ha⟩) hl
        simp [hl, hl'] at e
        exact absurd e this
      | some v' => simp [hl, hl'] at e; simp [e]
  · rw [lookupCell_range h (by omega), lookupCell_range h' (by omega)]

/-- A framebuffer that nothing was written to is in canonical form. -/
@[simp] theorem freshMemory_wf (n : Nat) : (freshMemory n).wf = true := rfl

/-- `SET_PIXEL`'s store keeps the canonical form. -/
theorem setPixelIn_wf {m m' : Memory} (h : m.wf = true) {x y : Int} {on : Bool} (he : setPixelIn m x y on = some m') :
    m'.wf = true := by
  unfold setPixelIn at he
  split at he
  · cases he
  · simp only [Option.some.injEq] at he
    subst he
    exact Memory.write_wf h _ _

/-- `SET_PIXEL`'s store keeps the free content. -/
theorem setPixelIn_init {m m' : Memory} {x y : Int} {on : Bool} (he : setPixelIn m x y on = some m') : m'.init = m.init := by
  unfold setPixelIn at he
  split at he
  · cases he
  · simp only [Option.some.injEq] at he
    subst he
    rfl

@[simp] theorem Memory.bytes_length (m : Memory) : m.bytes.length = 1024 := by simp [Memory.bytes]

end Sys2Proof.Machine
end

