-- ==== Sys2Proof/Laws/State.lean ====
section
/-! SUPPORT. One lemma per field per update of the state: what each shared update writes and what it leaves. -/

namespace Sys2Proof.Machine

/-! ### `record`: appends one event to the trace -/

@[simp] theorem State.record_cfg (e : Event) (s : State) : (s.record e).cfg = s.cfg := rfl
@[simp] theorem State.record_st (e : Event) (s : State) : (s.record e).st = s.st := rfl
@[simp] theorem State.record_stPrev (e : Event) (s : State) : (s.record e).stPrev = s.stPrev := rfl
@[simp] theorem State.record_fb (e : Event) (s : State) : (s.record e).fb = s.fb := rfl
@[simp] theorem State.record_sel (e : Event) (s : State) : (s.record e).sel = s.sel := rfl
@[simp] theorem State.record_mode (e : Event) (s : State) : (s.record e).mode = s.mode := rfl
@[simp] theorem State.record_rst (e : Event) (s : State) : (s.record e).rst = s.rst := rfl
@[simp] theorem State.record_req (e : Event) (s : State) : (s.record e).req = s.req := rfl
@[simp] theorem State.record_uprog (e : Event) (s : State) : (s.record e).uprog = s.uprog := rfl
@[simp] theorem State.record_upc (e : Event) (s : State) : (s.record e).upc = s.upc := rfl
@[simp] theorem State.record_res (e : Event) (s : State) : (s.record e).res = s.res := rfl
@[simp] theorem State.record_rspValid (e : Event) (s : State) : (s.record e).rspValid = s.rspValid := rfl
@[simp] theorem State.record_rspData (e : Event) (s : State) : (s.record e).rspData = s.rspData := rfl
@[simp] theorem State.record_trace (e : Event) (s : State) : (s.record e).trace = s.trace ++ [e] := rfl
@[simp] theorem State.record_inbox (e : Event) (s : State) : (s.record e).inbox = s.inbox := rfl
@[simp] theorem State.record_plIn (e : Event) (s : State) : (s.record e).plIn = s.plIn := rfl
@[simp] theorem State.record_answers (e : Event) (s : State) : (s.record e).answers = s.answers := rfl
@[simp] theorem State.record_draws (e : Event) (s : State) : (s.record e).draws = s.draws := rfl
@[simp] theorem State.record_resets (e : Event) (s : State) : (s.record e).resets = s.resets := rfl

/-! ### `latch`: writes `req` and `st_prev`, ends the last response -/

@[simp] theorem State.latch_cfg (i : Instr) (s : State) : (s.latch i).cfg = s.cfg := rfl
@[simp] theorem State.latch_st (i : Instr) (s : State) : (s.latch i).st = s.st := rfl
@[simp] theorem State.latch_stPrev (i : Instr) (s : State) : (s.latch i).stPrev = s.st := rfl
@[simp] theorem State.latch_fb (i : Instr) (s : State) : (s.latch i).fb = s.fb := rfl
@[simp] theorem State.latch_sel (i : Instr) (s : State) : (s.latch i).sel = s.sel := rfl
@[simp] theorem State.latch_mode (i : Instr) (s : State) : (s.latch i).mode = s.mode := rfl
@[simp] theorem State.latch_rst (i : Instr) (s : State) : (s.latch i).rst = s.rst := rfl
@[simp] theorem State.latch_req (i : Instr) (s : State) : (s.latch i).req = i := rfl
@[simp] theorem State.latch_uprog (i : Instr) (s : State) : (s.latch i).uprog = s.uprog := rfl
@[simp] theorem State.latch_upc (i : Instr) (s : State) : (s.latch i).upc = s.upc := rfl
@[simp] theorem State.latch_res (i : Instr) (s : State) : (s.latch i).res = s.res := rfl
@[simp] theorem State.latch_rspValid (i : Instr) (s : State) : (s.latch i).rspValid = false := rfl
@[simp] theorem State.latch_rspData (i : Instr) (s : State) : (s.latch i).rspData = s.rspData := rfl
@[simp] theorem State.latch_trace (i : Instr) (s : State) : (s.latch i).trace = s.trace := rfl
@[simp] theorem State.latch_inbox (i : Instr) (s : State) : (s.latch i).inbox = s.inbox := rfl
@[simp] theorem State.latch_plIn (i : Instr) (s : State) : (s.latch i).plIn = s.plIn := rfl
@[simp] theorem State.latch_answers (i : Instr) (s : State) : (s.latch i).answers = s.answers := rfl
@[simp] theorem State.latch_draws (i : Instr) (s : State) : (s.latch i).draws = s.draws := rfl
@[simp] theorem State.latch_resets (i : Instr) (s : State) : (s.latch i).resets = s.resets := rfl

/-! ### `complete`: idle, result and response -/

@[simp] theorem State.complete_cfg (r : ResultCode) (data : Byte) (s : State) : (s.complete r data).cfg = s.cfg := rfl
@[simp] theorem State.complete_st (r : ResultCode) (data : Byte) (s : State) : (s.complete r data).st = s.st := rfl
@[simp] theorem State.complete_stPrev (r : ResultCode) (data : Byte) (s : State) : (s.complete r data).stPrev = s.stPrev := rfl
@[simp] theorem State.complete_fb (r : ResultCode) (data : Byte) (s : State) : (s.complete r data).fb = s.fb := rfl
@[simp] theorem State.complete_sel (r : ResultCode) (data : Byte) (s : State) : (s.complete r data).sel = s.sel := rfl
@[simp] theorem State.complete_mode (r : ResultCode) (data : Byte) (s : State) : (s.complete r data).mode = s.mode := rfl
@[simp] theorem State.complete_rst (r : ResultCode) (data : Byte) (s : State) : (s.complete r data).rst = s.rst := rfl
@[simp] theorem State.complete_req (r : ResultCode) (data : Byte) (s : State) : (s.complete r data).req = s.req := rfl
@[simp] theorem State.complete_uprog (r : ResultCode) (data : Byte) (s : State) : (s.complete r data).uprog = [] := rfl
@[simp] theorem State.complete_upc (r : ResultCode) (data : Byte) (s : State) : (s.complete r data).upc = .idle := rfl
@[simp] theorem State.complete_res (r : ResultCode) (data : Byte) (s : State) : (s.complete r data).res = r := rfl
@[simp] theorem State.complete_rspValid (r : ResultCode) (data : Byte) (s : State) : (s.complete r data).rspValid = true := rfl
@[simp] theorem State.complete_rspData (r : ResultCode) (data : Byte) (s : State) : (s.complete r data).rspData = data := rfl
@[simp] theorem State.complete_trace (r : ResultCode) (data : Byte) (s : State) : (s.complete r data).trace = s.trace := rfl
@[simp] theorem State.complete_inbox (r : ResultCode) (data : Byte) (s : State) : (s.complete r data).inbox = s.inbox := rfl
@[simp] theorem State.complete_plIn (r : ResultCode) (data : Byte) (s : State) : (s.complete r data).plIn = s.plIn := rfl
@[simp] theorem State.complete_answers (r : ResultCode) (data : Byte) (s : State) : (s.complete r data).answers = s.answers := rfl
@[simp] theorem State.complete_draws (r : ResultCode) (data : Byte) (s : State) : (s.complete r data).draws = s.draws := rfl
@[simp] theorem State.complete_resets (r : ResultCode) (data : Byte) (s : State) : (s.complete r data).resets = s.resets := rfl

/-! ### `answerIllegal`: the answer to an illegal word -/

@[simp] theorem State.answerIllegal_cfg (s : State) : (s.answerIllegal).cfg = s.cfg := rfl
@[simp] theorem State.answerIllegal_st (s : State) : (s.answerIllegal).st = s.st := rfl
@[simp] theorem State.answerIllegal_stPrev (s : State) : (s.answerIllegal).stPrev = s.stPrev := rfl
@[simp] theorem State.answerIllegal_fb (s : State) : (s.answerIllegal).fb = s.fb := rfl
@[simp] theorem State.answerIllegal_sel (s : State) : (s.answerIllegal).sel = s.sel := rfl
@[simp] theorem State.answerIllegal_mode (s : State) : (s.answerIllegal).mode = s.mode := rfl
@[simp] theorem State.answerIllegal_rst (s : State) : (s.answerIllegal).rst = s.rst := rfl
@[simp] theorem State.answerIllegal_req (s : State) : (s.answerIllegal).req = s.req := rfl
@[simp] theorem State.answerIllegal_uprog (s : State) : (s.answerIllegal).uprog = [] := rfl
@[simp] theorem State.answerIllegal_upc (s : State) : (s.answerIllegal).upc = .idle := rfl
@[simp] theorem State.answerIllegal_res (s : State) : (s.answerIllegal).res = .illegalRequest := rfl
@[simp] theorem State.answerIllegal_rspValid (s : State) : (s.answerIllegal).rspValid = true := rfl
@[simp] theorem State.answerIllegal_rspData (s : State) : (s.answerIllegal).rspData = 0 := rfl
@[simp] theorem State.answerIllegal_trace (s : State) : (s.answerIllegal).trace = s.trace := rfl
@[simp] theorem State.answerIllegal_inbox (s : State) : (s.answerIllegal).inbox = s.inbox := rfl
@[simp] theorem State.answerIllegal_plIn (s : State) : (s.answerIllegal).plIn = s.plIn := rfl
@[simp] theorem State.answerIllegal_answers (s : State) : (s.answerIllegal).answers = s.answers := rfl
@[simp] theorem State.answerIllegal_draws (s : State) : (s.answerIllegal).draws = s.draws := rfl
@[simp] theorem State.answerIllegal_resets (s : State) : (s.answerIllegal).resets = s.resets := rfl

/-! ### `enterFaulted`: the abort rule -/

@[simp] theorem State.enterFaulted_cfg (s : State) : (s.enterFaulted).cfg = s.cfg := rfl
@[simp] theorem State.enterFaulted_st (s : State) : (s.enterFaulted).st = .faulted := rfl
@[simp] theorem State.enterFaulted_stPrev (s : State) : (s.enterFaulted).stPrev = s.stPrev := rfl
@[simp] theorem State.enterFaulted_fb (s : State) : (s.enterFaulted).fb = s.fb := rfl
@[simp] theorem State.enterFaulted_sel (s : State) : (s.enterFaulted).sel = s.cfg.selDeassert := rfl
@[simp] theorem State.enterFaulted_mode (s : State) : (s.enterFaulted).mode = s.mode := rfl
@[simp] theorem State.enterFaulted_rst (s : State) : (s.enterFaulted).rst = s.rst := rfl
@[simp] theorem State.enterFaulted_req (s : State) : (s.enterFaulted).req = s.req := rfl
@[simp] theorem State.enterFaulted_uprog (s : State) : (s.enterFaulted).uprog = [] := rfl
@[simp] theorem State.enterFaulted_upc (s : State) : (s.enterFaulted).upc = .idle := rfl
@[simp] theorem State.enterFaulted_res (s : State) : (s.enterFaulted).res = .busFailure := rfl
@[simp] theorem State.enterFaulted_rspValid (s : State) : (s.enterFaulted).rspValid = true := rfl
@[simp] theorem State.enterFaulted_rspData (s : State) : (s.enterFaulted).rspData = 0 := rfl
@[simp] theorem State.enterFaulted_trace (s : State) : (s.enterFaulted).trace = s.trace ++ [.line .select s.cfg.selDeassert] := rfl
@[simp] theorem State.enterFaulted_inbox (s : State) : (s.enterFaulted).inbox = s.inbox := rfl
@[simp] theorem State.enterFaulted_plIn (s : State) : (s.enterFaulted).plIn = s.plIn := rfl
@[simp] theorem State.enterFaulted_answers (s : State) : (s.enterFaulted).answers = s.answers := rfl
@[simp] theorem State.enterFaulted_draws (s : State) : (s.enterFaulted).draws = s.draws := rfl
@[simp] theorem State.enterFaulted_resets (s : State) : (s.enterFaulted).resets = s.resets := rfl

/-! ### `dropAnswer`: takes one answer of the transport -/

@[simp] theorem State.dropAnswer_cfg (s : State) : (s.dropAnswer).cfg = s.cfg := by unfold State.dropAnswer; split <;> rfl
@[simp] theorem State.dropAnswer_st (s : State) : (s.dropAnswer).st = s.st := by unfold State.dropAnswer; split <;> rfl
@[simp] theorem State.dropAnswer_stPrev (s : State) : (s.dropAnswer).stPrev = s.stPrev := by unfold State.dropAnswer; split <;> rfl
@[simp] theorem State.dropAnswer_fb (s : State) : (s.dropAnswer).fb = s.fb := by unfold State.dropAnswer; split <;> rfl
@[simp] theorem State.dropAnswer_sel (s : State) : (s.dropAnswer).sel = s.sel := by unfold State.dropAnswer; split <;> rfl
@[simp] theorem State.dropAnswer_mode (s : State) : (s.dropAnswer).mode = s.mode := by unfold State.dropAnswer; split <;> rfl
@[simp] theorem State.dropAnswer_rst (s : State) : (s.dropAnswer).rst = s.rst := by unfold State.dropAnswer; split <;> rfl
@[simp] theorem State.dropAnswer_req (s : State) : (s.dropAnswer).req = s.req := by unfold State.dropAnswer; split <;> rfl
@[simp] theorem State.dropAnswer_uprog (s : State) : (s.dropAnswer).uprog = s.uprog := by unfold State.dropAnswer; split <;> rfl
@[simp] theorem State.dropAnswer_upc (s : State) : (s.dropAnswer).upc = s.upc := by unfold State.dropAnswer; split <;> rfl
@[simp] theorem State.dropAnswer_res (s : State) : (s.dropAnswer).res = s.res := by unfold State.dropAnswer; split <;> rfl
@[simp] theorem State.dropAnswer_rspValid (s : State) : (s.dropAnswer).rspValid = s.rspValid := by unfold State.dropAnswer; split <;> rfl
@[simp] theorem State.dropAnswer_rspData (s : State) : (s.dropAnswer).rspData = s.rspData := by unfold State.dropAnswer; split <;> rfl
@[simp] theorem State.dropAnswer_trace (s : State) : (s.dropAnswer).trace = s.trace := by unfold State.dropAnswer; split <;> rfl
@[simp] theorem State.dropAnswer_inbox (s : State) : (s.dropAnswer).inbox = s.inbox := by unfold State.dropAnswer; split <;> rfl
@[simp] theorem State.dropAnswer_plIn (s : State) : (s.dropAnswer).plIn = s.plIn := by unfold State.dropAnswer; split <;> rfl
@[simp] theorem State.dropAnswer_resets (s : State) : (s.dropAnswer).resets = s.resets := by unfold State.dropAnswer; split <;> rfl
@[simp] theorem State.dropAnswer_answers (s : State) : s.dropAnswer.answers = s.answers.tail := by
  unfold State.dropAnswer; split <;> simp_all

/-! ### `setLine`: writes one line register -/

@[simp] theorem State.setLine_cfg (w : Line) (l : Level) (s : State) : (s.setLine w l).cfg = s.cfg := by cases w <;> rfl
@[simp] theorem State.setLine_st (w : Line) (l : Level) (s : State) : (s.setLine w l).st = s.st := by cases w <;> rfl
@[simp] theorem State.setLine_stPrev (w : Line) (l : Level) (s : State) : (s.setLine w l).stPrev = s.stPrev := by cases w <;> rfl
@[simp] theorem State.setLine_fb (w : Line) (l : Level) (s : State) : (s.setLine w l).fb = s.fb := by cases w <;> rfl
@[simp] theorem State.setLine_req (w : Line) (l : Level) (s : State) : (s.setLine w l).req = s.req := by cases w <;> rfl
@[simp] theorem State.setLine_uprog (w : Line) (l : Level) (s : State) : (s.setLine w l).uprog = s.uprog := by cases w <;> rfl
@[simp] theorem State.setLine_upc (w : Line) (l : Level) (s : State) : (s.setLine w l).upc = s.upc := by cases w <;> rfl
@[simp] theorem State.setLine_res (w : Line) (l : Level) (s : State) : (s.setLine w l).res = s.res := by cases w <;> rfl
@[simp] theorem State.setLine_rspValid (w : Line) (l : Level) (s : State) : (s.setLine w l).rspValid = s.rspValid := by cases w <;> rfl
@[simp] theorem State.setLine_rspData (w : Line) (l : Level) (s : State) : (s.setLine w l).rspData = s.rspData := by cases w <;> rfl
@[simp] theorem State.setLine_trace (w : Line) (l : Level) (s : State) : (s.setLine w l).trace = s.trace := by cases w <;> rfl
@[simp] theorem State.setLine_inbox (w : Line) (l : Level) (s : State) : (s.setLine w l).inbox = s.inbox := by cases w <;> rfl
@[simp] theorem State.setLine_plIn (w : Line) (l : Level) (s : State) : (s.setLine w l).plIn = s.plIn := by cases w <;> rfl
@[simp] theorem State.setLine_answers (w : Line) (l : Level) (s : State) : (s.setLine w l).answers = s.answers := by cases w <;> rfl
@[simp] theorem State.setLine_draws (w : Line) (l : Level) (s : State) : (s.setLine w l).draws = s.draws := by cases w <;> rfl
@[simp] theorem State.setLine_resets (w : Line) (l : Level) (s : State) : (s.setLine w l).resets = s.resets := by cases w <;> rfl
@[simp] theorem State.setLine_select_sel (l : Level) (s : State) : (s.setLine .select l).sel = l := rfl
@[simp] theorem State.setLine_select_mode (l : Level) (s : State) : (s.setLine .select l).mode = s.mode := rfl
@[simp] theorem State.setLine_select_rst (l : Level) (s : State) : (s.setLine .select l).rst = s.rst := rfl
@[simp] theorem State.setLine_mode_sel (l : Level) (s : State) : (s.setLine .mode l).sel = s.sel := rfl
@[simp] theorem State.setLine_mode_mode (l : Level) (s : State) : (s.setLine .mode l).mode = l := rfl
@[simp] theorem State.setLine_mode_rst (l : Level) (s : State) : (s.setLine .mode l).rst = s.rst := rfl
@[simp] theorem State.setLine_reset_sel (l : Level) (s : State) : (s.setLine .reset l).sel = s.sel := rfl
@[simp] theorem State.setLine_reset_mode (l : Level) (s : State) : (s.setLine .reset l).mode = s.mode := rfl
@[simp] theorem State.setLine_reset_rst (l : Level) (s : State) : (s.setLine .reset l).rst = l := rfl

/-! ### `load`: loads a micro-program -/

@[simp] theorem State.load_cfg (prog : List MicroOp) (s : State) : (s.load prog).cfg = s.cfg := by cases prog <;> rfl
@[simp] theorem State.load_st (prog : List MicroOp) (s : State) : (s.load prog).st = s.st := by cases prog <;> rfl
@[simp] theorem State.load_stPrev (prog : List MicroOp) (s : State) : (s.load prog).stPrev = s.stPrev := by cases prog <;> rfl
@[simp] theorem State.load_fb (prog : List MicroOp) (s : State) : (s.load prog).fb = s.fb := by cases prog <;> rfl
@[simp] theorem State.load_sel (prog : List MicroOp) (s : State) : (s.load prog).sel = s.sel := by cases prog <;> rfl
@[simp] theorem State.load_mode (prog : List MicroOp) (s : State) : (s.load prog).mode = s.mode := by cases prog <;> rfl
@[simp] theorem State.load_rst (prog : List MicroOp) (s : State) : (s.load prog).rst = s.rst := by cases prog <;> rfl
@[simp] theorem State.load_req (prog : List MicroOp) (s : State) : (s.load prog).req = s.req := by cases prog <;> rfl
@[simp] theorem State.load_uprog (prog : List MicroOp) (s : State) : (s.load prog).uprog = prog := by cases prog <;> rfl
@[simp] theorem State.load_trace (prog : List MicroOp) (s : State) : (s.load prog).trace = s.trace := by cases prog <;> rfl
@[simp] theorem State.load_inbox (prog : List MicroOp) (s : State) : (s.load prog).inbox = s.inbox := by cases prog <;> rfl
@[simp] theorem State.load_plIn (prog : List MicroOp) (s : State) : (s.load prog).plIn = s.plIn := by cases prog <;> rfl
@[simp] theorem State.load_answers (prog : List MicroOp) (s : State) : (s.load prog).answers = s.answers := by cases prog <;> rfl
@[simp] theorem State.load_draws (prog : List MicroOp) (s : State) : (s.load prog).draws = s.draws := by cases prog <;> rfl
@[simp] theorem State.load_resets (prog : List MicroOp) (s : State) : (s.load prog).resets = s.resets := by cases prog <;> rfl

/-! ### `advance`: moves `upc` on, or completes -/

@[simp] theorem State.advance_cfg (k : Nat) (s : State) : (s.advance k).cfg = s.cfg := by unfold State.advance; split <;> rfl
@[simp] theorem State.advance_st (k : Nat) (s : State) : (s.advance k).st = s.st := by unfold State.advance; split <;> rfl
@[simp] theorem State.advance_stPrev (k : Nat) (s : State) : (s.advance k).stPrev = s.stPrev := by unfold State.advance; split <;> rfl
@[simp] theorem State.advance_fb (k : Nat) (s : State) : (s.advance k).fb = s.fb := by unfold State.advance; split <;> rfl
@[simp] theorem State.advance_sel (k : Nat) (s : State) : (s.advance k).sel = s.sel := by unfold State.advance; split <;> rfl
@[simp] theorem State.advance_mode (k : Nat) (s : State) : (s.advance k).mode = s.mode := by unfold State.advance; split <;> rfl
@[simp] theorem State.advance_rst (k : Nat) (s : State) : (s.advance k).rst = s.rst := by unfold State.advance; split <;> rfl
@[simp] theorem State.advance_req (k : Nat) (s : State) : (s.advance k).req = s.req := by unfold State.advance; split <;> rfl
@[simp] theorem State.advance_trace (k : Nat) (s : State) : (s.advance k).trace = s.trace := by unfold State.advance; split <;> rfl
@[simp] theorem State.advance_inbox (k : Nat) (s : State) : (s.advance k).inbox = s.inbox := by unfold State.advance; split <;> rfl
@[simp] theorem State.advance_plIn (k : Nat) (s : State) : (s.advance k).plIn = s.plIn := by unfold State.advance; split <;> rfl
@[simp] theorem State.advance_answers (k : Nat) (s : State) : (s.advance k).answers = s.answers := by unfold State.advance; split <;> rfl
@[simp] theorem State.advance_draws (k : Nat) (s : State) : (s.advance k).draws = s.draws := by unfold State.advance; split <;> rfl
@[simp] theorem State.advance_resets (k : Nat) (s : State) : (s.advance k).resets = s.resets := by unfold State.advance; split <;> rfl

/-! ### `blockReset`: the block reset -/

@[simp] theorem State.blockReset_cfg (s : State) : (s.blockReset).cfg = s.cfg := rfl
@[simp] theorem State.blockReset_st (s : State) : (s.blockReset).st = .uninitialized := rfl
@[simp] theorem State.blockReset_stPrev (s : State) : (s.blockReset).stPrev = .uninitialized := rfl
@[simp] theorem State.blockReset_fb (s : State) : (s.blockReset).fb = freshMemory (s.resets + 1) := rfl
@[simp] theorem State.blockReset_sel (s : State) : (s.blockReset).sel = s.cfg.selDeassert := rfl
@[simp] theorem State.blockReset_mode (s : State) : (s.blockReset).mode = .low := rfl
@[simp] theorem State.blockReset_rst (s : State) : (s.blockReset).rst = s.cfg.rstDeassert := rfl
@[simp] theorem State.blockReset_req (s : State) : (s.blockReset).req = Config.resetReq (s.resets + 1) := rfl
@[simp] theorem State.blockReset_uprog (s : State) : (s.blockReset).uprog = [] := rfl
@[simp] theorem State.blockReset_upc (s : State) : (s.blockReset).upc = .idle := rfl
@[simp] theorem State.blockReset_res (s : State) : (s.blockReset).res = .ok := rfl
@[simp] theorem State.blockReset_rspValid (s : State) : (s.blockReset).rspValid = false := rfl
@[simp] theorem State.blockReset_rspData (s : State) : (s.blockReset).rspData = 0 := rfl
@[simp] theorem State.blockReset_trace (s : State) : (s.blockReset).trace = s.trace := rfl
@[simp] theorem State.blockReset_inbox (s : State) : (s.blockReset).inbox = s.inbox := rfl
@[simp] theorem State.blockReset_plIn (s : State) : (s.blockReset).plIn = s.plIn := rfl
@[simp] theorem State.blockReset_answers (s : State) : (s.blockReset).answers = s.answers := rfl
@[simp] theorem State.blockReset_draws (s : State) : (s.blockReset).draws = s.draws := rfl
@[simp] theorem State.blockReset_resets (s : State) : (s.blockReset).resets = s.resets + 1 := rfl

end Sys2Proof.Machine
end

