-- ==== Sys2Proof/Laws/Ops.lean ====
section
/-! SUPPORT. What each shared operation can do, said once: the small equations of a step, one inversion lemma for a meaning and one
for a step, and how several steps compose. -/

namespace Sys2Proof.Machine

/-! ## The equations of a step -/

theorem step_busy {s : State} {k : Nat} (h : s.upc = .running k) : step s = microStep k s := by
  simp only [step, h]

theorem step_idle {s : State} (h : s.upc = .idle) :
    step s = (match fetch s with
      | .run i t => exec i t
      | .done r => r) := by
  simp only [step, h] <;> rfl

theorem microStep_some {s : State} {k : Nat} {op : MicroOp} (h : s.uprog[k]? = some op) :
    microStep k s = .next (State.runMicroOp k op { s with rspValid := false }) := by
  simp only [microStep, h]

@[simp] theorem whenIdle_idle {s : State} (t : State) (h : s.upc = .idle) : whenIdle s t = .next t := by
  simp only [whenIdle, h]

@[simp] theorem whenIdle_at {s : State} {k : Nat} (t : State) (h : s.upc = .running k) : whenIdle s t = .refused .busy := by
  simp only [whenIdle, h]

theorem whenIdle_next {s t u : State} (h : whenIdle s t = .next u) : s.upc = .idle ∧ u = t := by
  unfold whenIdle at h
  split at h
  · rename_i hu
    simp only [Host.Outcome.next.injEq] at h
    exact ⟨hu, h.symm⟩
  · cases h

theorem acceptReady_ready {s : State} (i : Instr) (prog : List MicroOp) (h : s.st = .ready) :
    acceptReady i prog s = accept i prog s := by
  simp only [acceptReady, h]

theorem acceptReady_other {s : State} (i : Instr) (prog : List MicroOp) (h : s.st ≠ .ready) :
    acceptReady i prog s = acceptDone i .notInitialized 0 s := by
  unfold acceptReady
  split
  · exact absurd ‹_› h
  all_goals rfl

/-! ## What a meaning can answer -/

/-- The state an accepted instruction leaves: it completes at once with a result, or stores to FB and completes, or loads its
micro-program, or is an illegal request. -/
inductive Accepted (i : Instr) (s t : State) : Prop where
  | done (r : ResultCode) (data : Byte) (hr : r ≠ .busFailure) (hp : expand s.cfg s.st s.fb i = [])
      (ht : t = (s.latch i).complete r data)
  | stored (m : Memory) (hi : m.init = s.fb.init) (hw : s.fb.wf = true → m.wf = true)
      (hs : (∃ x y on, i = .setPixel x y on) ∨ i = .clear ∨ ∃ p, i = .bulkReplace p)
      (hp : expand s.cfg s.st s.fb i = []) (ht : t = (State.latch i { s with fb := m }).complete .ok 0)
  | loaded (ht : t = (s.latch i).load (expand s.cfg s.st s.fb i))
  | illegal (hi : i = .writeData []) (ht : t = s.answerIllegal)

theorem acceptReady_next {i : Instr} {prog : List MicroOp} {s t : State} (h : acceptReady i prog s = .next t)
    (he : expand s.cfg s.st s.fb i = whenReady s.st prog) : s.upc = .idle ∧ Accepted i s t := by
  unfold acceptReady at h
  split at h <;> rename_i hst <;> obtain ⟨hu, rfl⟩ := whenIdle_next h <;> refine ⟨hu, ?_⟩
  · exact .loaded (by rw [he, hst, whenReady])
  all_goals exact .done .notInitialized 0 (by decide) (by rw [he, hst, whenReady]) rfl

theorem accept_next {i : Instr} {prog : List MicroOp} {s t : State} (h : accept i prog s = .next t)
    (he : expand s.cfg s.st s.fb i = prog) : s.upc = .idle ∧ Accepted i s t := by
  obtain ⟨hu, rfl⟩ := whenIdle_next h
  exact ⟨hu, .loaded (by rw [he])⟩

/-- The inversion lemma of the meanings. -/
theorem exec_next {i : Instr} {s t : State} (h : exec i s = .next t) : s.upc = .idle ∧ Accepted i s t := by
  cases i with
  | init => exact accept_next h rfl
  | resetSeq => exact accept_next h rfl
  | writeCommand b => exact acceptReady_next h rfl
  | writeData p =>
    cases p with
    | nil => obtain ⟨hu, rfl⟩ := whenIdle_next h; exact ⟨hu, .illegal rfl rfl⟩
    | cons b rest => exact acceptReady_next h rfl
  | update => exact acceptReady_next h rfl
  | setPixel x y on =>
    simp only [exec, execSetPixel] at h
    cases hm : setPixelIn s.fb (coord x) (coord y) on with
    | none =>
      simp only [hm] at h
      obtain ⟨hu, rfl⟩ := whenIdle_next h
      exact ⟨hu, .done .outOfBounds 0 (by decide) rfl rfl⟩
    | some m =>
      simp only [hm, acceptStore] at h
      obtain ⟨hu, rfl⟩ := whenIdle_next h
      exact ⟨hu, .stored m (setPixelIn_init hm) (fun hw => setPixelIn_wf hw hm) (.inl ⟨x, y, on, rfl⟩) rfl rfl⟩
  | clear =>
    simp only [exec, execClear, acceptStore] at h
    obtain ⟨hu, rfl⟩ := whenIdle_next h
    exact ⟨hu, .stored (s.fb.fill (fun _ => 0)) (Memory.fill_init _ _) (fun _ => Memory.fill_wf _ _) (.inr (.inl rfl)) rfl rfl⟩
  | bulkReplace p =>
    simp only [exec, execBulkReplace, acceptStore] at h
    obtain ⟨hu, rfl⟩ := whenIdle_next h
    exact ⟨hu, .stored (s.fb.fill p.get) (Memory.fill_init _ _) (fun _ => Memory.fill_wf _ _) (.inr (.inr ⟨p, rfl⟩)) rfl rfl⟩
  | fbRead idx =>
    obtain ⟨hu, rfl⟩ := whenIdle_next h
    exact ⟨hu, .done .ok _ (by decide) rfl rfl⟩
  | displayOff | displayOn | setContrast c | setMultiplexRatio c | setAddressingMode c | setSegmentRemap c
  | setComScanDirection c | setColumnWindow b c | setPageWindow b c | setPageStart c | setColumnStartLow c
  | setColumnStartHigh c | other b c => exact acceptReady_next h rfl

/-! ## What a step can answer -/

/-- The next state of a step, by what the block does in it. -/
inductive Stepped (s t : State) : Prop where
  | micro (k : Nat) (op : MicroOp) (hk : s.upc = .running k) (hop : s.uprog[k]? = some op)
      (ht : t = State.runMicroOp k op { s with rspValid := false })
  | waiting (hu : s.upc = .idle) (hi : s.inbox = []) (ht : t = { s with rspValid := false })
  | blockReset (inputs : List Input) (hu : s.upc = .idle) (hi : s.inbox = .blockReset :: inputs)
      (ht : t = State.blockReset { s with inbox := inputs })
  | illegal (w : Word) (inputs : List Input) (hu : s.upc = .idle) (hi : s.inbox = .word w :: inputs)
      (ht : t = State.answerIllegal { s with inbox := inputs })
  | request (w : Word) (inputs : List Input) (i : Instr) (rest : List Byte) (hu : s.upc = .idle)
      (hi : s.inbox = .word w :: inputs) (hd : decodeRequest w s.plIn = .ok (i, rest))
      (ht : exec i { s with inbox := inputs, plIn := rest } = .next t)
  | directive (bytes : List Byte) (inputs : List Input) (i : Instr) (hu : s.upc = .idle)
      (hi : s.inbox = .directive bytes :: inputs) (hd : decodeDirective bytes = .ok i)
      (ht : exec i { s with inbox := inputs } = .next t)

/-- The inversion lemma of a step. -/
theorem step_next {s t : State} (h : step s = .next t) : Stepped s t := by
  cases hu : s.upc with
  | running k =>
    rw [step_busy hu] at h
    unfold microStep at h
    split at h
    · rename_i op hop
      simp only [Host.Outcome.next.injEq] at h
      exact .micro k op hu hop h.symm
    · cases h
  | idle =>
    rw [step_idle hu] at h
    unfold fetch at h
    cases hi : s.inbox with
    | nil =>
      simp only [hi, Host.Outcome.next.injEq] at h
      exact .waiting hu hi (by rw [← h]; simp only [hi])
    | cons input inputs =>
      cases input with
      | blockReset =>
        simp only [hi, Host.Outcome.next.injEq] at h
        exact .blockReset inputs hu hi h.symm
      | directive bytes =>
        simp only [hi] at h
        cases hd : decodeDirective bytes with
        | ok i => simp only [hd] at h; exact .directive bytes inputs i hu hi hd h
        | error e => simp only [hd] at h; cases h
      | word w =>
        simp only [hi, fetchWord] at h
        cases hd : decodeRequest w s.plIn with
        | ok r => simp only [hd] at h; exact .request w inputs r.1 r.2 hu hi hd h
        | error e =>
          cases e <;> simp only [hd, Host.Outcome.next.injEq, reduceCtorEq] at h <;>
            exact .illegal w inputs hu hi h.symm

/-! ## Several steps -/

@[simp] theorem steps_zero (s : State) : steps 0 s = .next s := rfl

theorem steps_succ {s t : State} (n : Nat) (h : step s = .next t) : steps (n + 1) s = steps n t := by
  simp only [steps, h]

theorem steps_one {s t : State} (h : step s = .next t) : steps 1 s = .next t := by
  rw [steps_succ 0 h, steps_zero]

theorem steps_add {s t : State} (m n : Nat) (h : steps m s = .next t) : steps (m + n) s = steps n t := by
  induction m generalizing s with
  | zero =>
    simp only [steps_zero, Host.Outcome.next.injEq] at h
    rw [h, Nat.zero_add]
  | succ m ih =>
    rw [Nat.succ_add]
    simp only [steps] at h ⊢
    split at h
    · rename_i u hu
      exact ih h
    · cases h
    · cases h

end Sys2Proof.Machine
end

