-- ==== Sys2Proof/Laws/PerInstr.lean ====
section
/-! SUPPORT. The family `ImageKind`, one lemma per constructor: a host request is written as a request word with its payload, a
directive as its byte list (spec/30_encoding.md R100, R104, R108). -/

namespace Sys2Proof.Laws.ImageKind

open Sys2Proof.Machine

/-- The written form of an instruction is of the kind R100 gives it. -/
def Statement (i : Instr) : Prop :=
  match directiveOf i with
  | none => ∃ (w : Word) (payload : List Byte), encode i = .request w payload
  | some d => d.toInstr = i ∧ encode i = .directive (directiveBytes d)

theorem init : Statement .init := ⟨_, _, rfl⟩
theorem resetSeq : Statement .resetSeq := ⟨_, _, rfl⟩
theorem writeCommand (byte : Byte) : Statement (.writeCommand byte) := ⟨_, _, rfl⟩
theorem writeData (payload : List Byte) : Statement (.writeData payload) := ⟨_, _, rfl⟩
theorem update : Statement .update := ⟨_, _, rfl⟩
theorem setPixel (x y : Byte) (on : Bool) : Statement (.setPixel x y on) := ⟨_, _, rfl⟩
theorem clear : Statement .clear := ⟨_, _, rfl⟩
theorem bulkReplace (payload : Vector Byte 1024) : Statement (.bulkReplace payload) := ⟨_, _, rfl⟩
theorem fbRead (idx : BitVec 10) : Statement (.fbRead idx) := ⟨_, _, rfl⟩
theorem displayOff : Statement .displayOff := ⟨rfl, rfl⟩
theorem displayOn : Statement .displayOn := ⟨rfl, rfl⟩
theorem setContrast (c : Byte) : Statement (.setContrast c) := ⟨rfl, rfl⟩
theorem setMultiplexRatio (m : BitVec 6) : Statement (.setMultiplexRatio m) := ⟨rfl, rfl⟩
theorem setAddressingMode (a : AddressingMode) : Statement (.setAddressingMode a) := ⟨rfl, rfl⟩
theorem setSegmentRemap (r : Bool) : Statement (.setSegmentRemap r) := ⟨rfl, rfl⟩
theorem setComScanDirection (r : Bool) : Statement (.setComScanDirection r) := ⟨rfl, rfl⟩
theorem setColumnWindow (s : BitVec 7) (e : LastFrom s) : Statement (.setColumnWindow s e) := ⟨rfl, rfl⟩
theorem setPageWindow (s : BitVec 3) (e : LastFrom s) : Statement (.setPageWindow s e) := ⟨rfl, rfl⟩
theorem setPageStart (p : BitVec 3) : Statement (.setPageStart p) := ⟨rfl, rfl⟩
theorem setColumnStartLow (n : BitVec 4) : Statement (.setColumnStartLow n) := ⟨rfl, rfl⟩
theorem setColumnStartHigh (n : BitVec 4) : Statement (.setColumnStartHigh n) := ⟨rfl, rfl⟩
theorem other (c : Byte) (ps : ParamBytes) : Statement (.other c ps) := ⟨rfl, rfl⟩

end Sys2Proof.Laws.ImageKind
end

