-- ==== Sys2Proof/Laws/Run.lean ====
section
/-! SUPPORT. How a whole micro-program runs: what the micro-ops from one index to another do when the transport answers `Ok`, how the
last one ends the request, and how a failed bus write does. -/

namespace Sys2Proof.Machine

/-- The number of bus writes among micro-ops. -/
def busWrites : List MicroOp → Nat
  | [] => 0
  | .tx _ :: rest => busWrites rest + 1
  | .line _ _ :: rest => busWrites rest
  | .wait _ :: rest => busWrites rest
  | .state _ :: rest => busWrites rest

@[simp] theorem busWrites_append (a b : List MicroOp) : busWrites (a ++ b) = busWrites a + busWrites b := by
  induction a with
  | nil => simp [busWrites]
  | cons op rest ih => cases op <;> simp only [List.cons_append, busWrites, ih, Nat.add_right_comm]

@[simp] theorem okEvents_append (a b : List MicroOp) : okEvents (a ++ b) = okEvents a ++ okEvents b := by
  induction a with
  | nil => rfl
  | cons op rest ih => cases op <;> simp [okEvents, ih]

@[simp] theorem stAfter_append (s : Session) (a b : List MicroOp) : stAfter s (a ++ b) = stAfter (stAfter s a) b := by
  induction a generalizing s with
  | nil => rfl
  | cons op rest ih => cases op <;> simp [stAfter, ih]

@[simp] theorem lineAfter_append (w : Line) (l : Level) (a b : List MicroOp) :
    lineAfter w l (a ++ b) = lineAfter w (lineAfter w l a) b := by
  induction a generalizing l with
  | nil => rfl
  | cons op rest ih => cases op <;> simp [lineAfter, ih]

/-- The state that the micro-ops `ops`, all bus writes answered `Ok` and `answers` left over, leave of `s`, `upc` apart. -/
def State.afterOk (ops : List MicroOp) (answers : List BusAnswer) (s : State) : State :=
  { s with
    st := stAfter s.st ops, sel := lineAfter .select s.sel ops, mode := lineAfter .mode s.mode ops,
    rst := lineAfter .reset s.rst ops, trace := s.trace ++ okEvents ops, answers := answers }

/-- One micro-op that the transport does not fail. -/
theorem runMicroOp_ok {s : State} {k : Nat} {op : MicroOp} {rest : List BusAnswer}
    (ha : s.answers = List.replicate (busWrites [op]) .ok ++ rest) :
    s.runMicroOp k op = (s.afterOk [op] rest).advance k := by
  cases op with
  | line w l => cases w <;> simp_all [State.runMicroOp, State.afterOk, stAfter, lineAfter, okEvents, State.setLine, State.record, busWrites]
  | wait d => simp_all [State.runMicroOp, State.afterOk, stAfter, lineAfter, okEvents, State.record, busWrites]
  | state x => simp_all [State.runMicroOp, State.afterOk, stAfter, lineAfter, okEvents, busWrites]
  | tx bytes =>
    have ha' : s.answers = .ok :: rest := by simpa [busWrites] using ha
    simp [State.runMicroOp, State.afterOk, stAfter, lineAfter, okEvents, State.record, State.nextAnswer, State.dropAnswer, ha']

theorem State.advance_more {s : State} {k : Nat} (h : k + 1 < s.uprog.length) : s.advance k = { s with upc := .running (k + 1) } := by
  simp only [State.advance, if_pos h]

theorem State.advance_last {s : State} {k : Nat} (h : s.uprog.length ≤ k + 1) : s.advance k = s.complete .ok 0 := by
  simp only [State.advance, if_neg (Nat.not_lt.2 h)]

/-- Everything a micro-op can do: it takes effect and the block moves on, or it is a bus write that the transport failed. -/
theorem runMicroOp_cases (k : Nat) (op : MicroOp) (s : State) :
    (∃ answers draws, s.runMicroOp k op = State.advance k { s.afterOk [op] answers with draws := draws }) ∨
    (∃ bytes answers draws, op = .tx bytes ∧
      s.runMicroOp k op = State.enterFaulted
        { s with trace := s.trace ++ [Event.bus bytes .fail], answers := answers, draws := draws }) := by
  cases op with
  | line w l => exact .inl ⟨s.answers, s.draws, by cases w <;> rfl⟩
  | wait d => exact .inl ⟨s.answers, s.draws, rfl⟩
  | state x => exact .inl ⟨s.answers, s.draws, by simp [State.runMicroOp, State.afterOk, stAfter, lineAfter, okEvents]⟩
  | tx bytes =>
    cases ha : s.answers with
    | nil =>
      cases hf : Config.freeAnswer s.draws with
      | ok =>
        exact .inl ⟨s.answers, s.draws + 1, by
          simp [State.runMicroOp, State.nextAnswer, State.dropAnswer, State.record, State.afterOk, stAfter, lineAfter, okEvents, ha, hf]⟩
      | fail =>
        exact .inr ⟨bytes, s.answers, s.draws + 1, rfl, by
          simp [State.runMicroOp, State.nextAnswer, State.dropAnswer, State.record, ha, hf]⟩
    | cons a rest =>
      cases a with
      | ok =>
        exact .inl ⟨rest, s.draws, by
          simp [State.runMicroOp, State.nextAnswer, State.dropAnswer, State.record, State.afterOk, stAfter, lineAfter, okEvents, ha]⟩
      | fail =>
        exact .inr ⟨bytes, rest, s.draws, rfl, by
          simp [State.runMicroOp, State.nextAnswer, State.dropAnswer, State.record, ha]⟩

/-- The micro-ops `ops`, standing after `pre` and before `post`, run without completing the request. -/
theorem steps_through {s : State} (pre ops post : List MicroOp) (rest : List BusAnswer) (hp : post ≠ [])
    (hu : s.upc = .running pre.length) (hv : s.rspValid = false) (hprog : s.uprog = pre ++ ops ++ post)
    (ha : s.answers = List.replicate (busWrites ops) .ok ++ rest) :
    steps ops.length s = .next { s.afterOk ops rest with upc := .running (pre.length + ops.length) } := by
  induction ops generalizing s pre with
  | nil =>
    simp only [List.length_nil, steps_zero, State.afterOk, stAfter, lineAfter, okEvents, List.append_nil, Nat.add_zero]
    have : s.answers = rest := by simpa [busWrites] using ha
    rw [← hu, ← this]
  | cons op ops ih =>
    have hop : s.uprog[pre.length]? = some op := by simp [hprog]
    have hsplit : busWrites (op :: ops) = busWrites [op] + busWrites ops := by
      rw [← busWrites_append]; rfl
    have ha1 : s.answers = List.replicate (busWrites [op]) .ok ++ (List.replicate (busWrites ops) .ok ++ rest) := by
      rw [ha, hsplit, List.replicate_add, List.append_assoc]
    have hs0 : { s with rspValid := false } = s := by rw [← hv]
    have hlen : pre.length + 1 < s.uprog.length := by
      have : 0 < post.length := List.length_pos_of_ne_nil hp
      simp [hprog]; omega
    have hstep : step s = .next { s.afterOk [op] (List.replicate (busWrites ops) .ok ++ rest) with upc := .running (pre.length + 1) } := by
      rw [step_busy hu, microStep_some hop, hs0, runMicroOp_ok ha1, State.advance_more (by simpa [State.afterOk] using hlen)]
    rw [List.length_cons, steps_succ _ hstep]
    have := ih (s := { s.afterOk [op] (List.replicate (busWrites ops) .ok ++ rest) with upc := .running (pre.length + 1) }) (pre ++ [op])
      (by simp) (by simpa [State.afterOk] using hv) (by simp [State.afterOk, hprog]) rfl
    rw [this]
    have e : op :: ops = [op] ++ ops := rfl
    rw [e]
    simp only [State.afterOk, stAfter_append, lineAfter_append, okEvents_append, List.length_append, List.append_assoc,
      List.length_cons, List.length_nil, Nat.zero_add, Nat.add_assoc, Nat.add_comm 1 ops.length]

/-- The micro-ops from index `pre.length` to the end run and complete the request with `Ok`. -/
theorem steps_to_end {s : State} (pre ops : List MicroOp) (rest : List BusAnswer) (ho : ops ≠ [])
    (hu : s.upc = .running pre.length) (hv : s.rspValid = false) (hprog : s.uprog = pre ++ ops)
    (ha : s.answers = List.replicate (busWrites ops) .ok ++ rest) :
    steps ops.length s = .next ((s.afterOk ops rest).complete .ok 0) := by
  obtain ⟨front, last, rfl⟩ := List.eq_nil_or_concat ops |>.resolve_left ho
  rw [List.concat_eq_append] at *
  have ha1 : s.answers = List.replicate (busWrites front) .ok ++ (List.replicate (busWrites [last]) .ok ++ rest) := by
    rw [ha, busWrites_append, List.replicate_add, List.append_assoc]
  rw [List.length_append, steps_add _ _ (steps_through pre front [last] _ (by simp) hu hv (by rw [hprog, List.append_assoc]) ha1)]
  set u : State := { s.afterOk front (List.replicate (busWrites [last]) .ok ++ rest) with upc := .running (pre.length + front.length) } with hue
  have hprog' : u.uprog = pre ++ (front ++ [last]) := by simp [hue, State.afterOk, hprog]
  have hop : u.uprog[pre.length + front.length]? = some last := by
    rw [hprog', ← List.append_assoc, ← List.length_append]; simp
  have hs0 : { u with rspValid := false } = u := by simp [hue, State.afterOk, hv]
  have hstep : step u = .next ((u.afterOk [last] rest).complete .ok 0) := by
    rw [step_busy (k := pre.length + front.length) rfl, microStep_some hop, hs0, runMicroOp_ok rfl,
      State.advance_last (by simp [State.afterOk, hprog']; omega)]
  rw [List.length_singleton, steps_one hstep]
  simp only [hue, State.afterOk, State.complete, stAfter_append, lineAfter_append, okEvents_append, List.append_assoc]

/-- A whole micro-program, from its acceptance. -/
theorem steps_loaded {s : State} (i : Instr) {prog : List MicroOp} (rest : List BusAnswer) (hp : prog ≠ [])
    (ha : s.answers = List.replicate (busWrites prog) .ok ++ rest) :
    steps prog.length ((s.latch i).load prog) = .next (((s.latch i).afterOk prog rest).complete .ok 0) := by
  cases prog with
  | nil => exact absurd rfl hp
  | cons op ops =>
    have h := steps_to_end (s := (s.latch i).load (op :: ops)) [] (op :: ops) rest hp rfl rfl rfl ha
    rw [h]
    rfl

/-- A micro-program that the transport fails at the bus write after `pre`. -/
theorem steps_failed {s : State} (i : Instr) (pre post : List MicroOp) (bytes : List Byte) (rest : List BusAnswer)
    (ha : s.answers = List.replicate (busWrites pre) .ok ++ .fail :: rest) :
    steps (pre.length + 1) ((s.latch i).load (pre ++ .tx bytes :: post)) =
      .next (State.enterFaulted { (s.latch i).afterOk pre rest with
        trace := s.trace ++ okEvents pre ++ [Event.bus bytes .fail] }) := by
  have hload : (s.latch i).load (pre ++ .tx bytes :: post) =
      { s.latch i with uprog := pre ++ .tx bytes :: post, upc := .running 0 } := by
    cases pre <;> rfl
  have h := steps_through (s := { s.latch i with uprog := pre ++ .tx bytes :: post, upc := .running 0 }) [] pre (.tx bytes :: post)
    (.fail :: rest) (by simp) rfl rfl rfl ha
  rw [hload, steps_add _ _ h]
  refine steps_one ?_
  rw [step_busy (k := 0 + pre.length) rfl, microStep_some (op := .tx bytes) (by simp [State.afterOk])]
  simp [State.runMicroOp, State.nextAnswer, State.dropAnswer, State.afterOk, State.record, State.enterFaulted, State.setLine,
    State.complete, State.latch]

end Sys2Proof.Machine
end

