-- ==== Sys2Proof/Laws/Program.lean ====
section
/-! SUPPORT. The micro-programs as lists of transactions: what a run of transactions does to the session state, the lines and the
trace, and that no bus write is empty. -/

namespace Sys2Proof.Machine

/-- The micro-ops of transactions, each given by its mode level and its bytes. -/
def txnsProgram (p : Params) (txns : List (Level × List Byte)) : List MicroOp := txns.flatMap (fun t => txn p t.1 t.2)

theorem txnsProgram_cons (p : Params) (t : Level × List Byte) (txns : List (Level × List Byte)) :
    txnsProgram p (t :: txns) =
      .line .select p.selAssert :: .line .mode t.1 :: .tx t.2 :: .line .select p.selDeassert :: txnsProgram p txns := rfl

@[simp] theorem txnsProgram_length (p : Params) (txns : List (Level × List Byte)) :
    (txnsProgram p txns).length = 4 * txns.length := by
  induction txns with
  | nil => rfl
  | cons t txns ih => simp only [txnsProgram_cons, List.length_cons, ih]; omega

@[simp] theorem busWrites_txnsProgram (p : Params) (txns : List (Level × List Byte)) :
    busWrites (txnsProgram p txns) = txns.length := by
  induction txns with
  | nil => rfl
  | cons t txns ih => simp only [txnsProgram_cons, busWrites, ih, List.length_cons]

@[simp] theorem okEvents_txnsProgram (p : Params) (txns : List (Level × List Byte)) :
    okEvents (txnsProgram p txns) = okTxns p txns := by
  induction txns with
  | nil => rfl
  | cons t txns ih => simp only [txnsProgram_cons, okEvents, ih]; rfl

@[simp] theorem stAfter_txnsProgram (s : Session) (p : Params) (txns : List (Level × List Byte)) :
    stAfter s (txnsProgram p txns) = s := by
  induction txns with
  | nil => rfl
  | cons t txns ih => simp only [txnsProgram_cons, stAfter, ih]

theorem select_txnsProgram (p : Params) (txns : List (Level × List Byte)) (l : Level) :
    lineAfter .select l (txnsProgram p txns) = if txns = [] then l else p.selDeassert := by
  induction txns generalizing l with
  | nil => rfl
  | cons t txns ih => simp [txnsProgram_cons, lineAfter, ih]

@[simp] theorem reset_txnsProgram (p : Params) (txns : List (Level × List Byte)) (l : Level) :
    lineAfter .reset l (txnsProgram p txns) = l := by
  induction txns generalizing l with
  | nil => rfl
  | cons t txns ih => simp [txnsProgram_cons, lineAfter, ih]

theorem mode_txnsProgram (p : Params) (txns : List (Level × List Byte)) (l : Level) :
    lineAfter .mode l (txnsProgram p txns) = (txns.map Prod.fst).getLastD l := by
  induction txns generalizing l with
  | nil => rfl
  | cons t txns ih => simp only [txnsProgram_cons, lineAfter, ih]; cases txns <;> simp [List.getLastD]

theorem cmdTxns_eq (p : Params) (frames : List (List Byte)) :
    cmdTxns p frames = txnsProgram p (frames.map (fun f => (Level.low, f))) := by
  simp only [cmdTxns, txnsProgram, List.flatMap_map]; rfl

theorem updateProgram_eq (p : Params) (m : Memory) : updateProgram p m = txnsProgram p (updateTxns p m) := by
  simp only [updateProgram, cmdTxns_eq, updateTxns, txnsProgram, List.flatMap_append, List.flatMap_map]; rfl

/-- Where a bus write stands in a run of transactions. -/
theorem txnsProgram_split {p : Params} {txns : List (Level × List Byte)} {pre post : List MicroOp} {bytes : List Byte}
    (h : txnsProgram p txns = pre ++ .tx bytes :: post) :
    ∃ before m after, txns = before ++ (m, bytes) :: after ∧
      pre = txnsProgram p before ++ [.line .select p.selAssert, .line .mode m] := by
  induction txns generalizing pre with
  | nil => simp [txnsProgram] at h
  | cons t txns ih =>
    rw [txnsProgram_cons] at h
    match pre, h with
    | [], h => simp at h
    | [_], h => simp at h
    | [x, y], h => simp at h; obtain ⟨rfl, rfl, rfl, _⟩ := h; exact ⟨[], t.1, txns, by simp, by simp [txnsProgram]⟩
    | [x, y, z], h => simp at h
    | x :: y :: z :: w :: pre', h =>
      simp at h
      obtain ⟨rfl, rfl, rfl, rfl, h⟩ := h
      obtain ⟨before, m, after, h1, h2⟩ := ih h
      exact ⟨t :: before, m, after, by simp [h1], by simp [h2, txnsProgram_cons]⟩

theorem codec_ne_nil (p : Params) (d : Directive) : codec p d ≠ [] := by
  cases d <;> simp only [codec, ne_eq, reduceCtorEq, not_false_eq_true] <;>
    (split
     · split
       · rename_i h; intro e; rw [e] at h; simp at h; omega
       · simp [directiveBytes]
     · simp [directiveBytes])

/-- No frame of a sequence is empty (spec/43_framing.md R212: a bus write carries at least one byte). -/
theorem frame_ne_nil {p : Params} {seq : List Directive} {f : List Byte} (h : f ∈ cmdFrames p seq) : f ≠ [] := by
  unfold cmdFrames at h
  split at h
  · simp only [List.mem_map] at h; obtain ⟨d, _, rfl⟩ := h; exact codec_ne_nil p d
  · simp at h; obtain ⟨_, _, _, _, rfl⟩ := h; simp

theorem cmdFrames_ne_nil (p : Params) {seq : List Directive} (h : seq ≠ []) : cmdFrames p seq ≠ [] := by
  unfold cmdFrames
  split
  · simpa using h
  · cases seq with
    | nil => exact absurd rfl h
    | cons d ds => simp [codec_ne_nil p d]

/-- No chunk of the framebuffer is empty. -/
theorem chunk_ne_nil {maxChunk : Option Nat} {m : Memory} {c : List Byte} (h : c ∈ chunks maxChunk m.bytes) : c ≠ [] := by
  have hl : m.bytes.length = 1024 := by simp
  have F : FB_SIZE = 1024 := rfl
  generalize m.bytes = bytes at *
  have hb : bytes ≠ [] := by intro h; simp [h] at hl
  cases maxChunk with
  | none => simp [chunks] at h; rw [h]; exact hb
  | some n =>
    simp only [chunks, F] at h
    split at h
    · simp at h; rw [h]; exact hb
    · simp at h
      obtain ⟨j, hj, rfl⟩ := h
      by_cases h0 : n = 0
      · subst h0; simp at hj
      have h1 : j * n < 1024 := by
        have := (Nat.le_div_iff_mul_le (by omega)).1 (show j + 1 ≤ (1024 + n - 1) / n from by simpa using hj)
        rw [Nat.succ_mul] at this; omega
      intro e; have := congrArg List.length e; simp [hl] at this; omega

/-- Transactions that were all answered `Ok` keep a trace well framed. -/
theorem WellFramed.okTxns {p : Params} {t : List Event} {txns : List (Level × List Byte)} (h : WellFramed p t)
    (hne : ∀ x ∈ txns, x.2 ≠ []) : WellFramed p (t ++ Machine.okTxns p txns) := by
  induction txns generalizing t with
  | nil => simpa [Machine.okTxns] using h
  | cons a txns ih =>
    have := ih (.txn a.1 .ok h (hne a (by simp))) (fun x hx => hne x (by simp [hx]))
    simpa [Machine.okTxns] using this

end Sys2Proof.Machine
end

