-- ==== Sys2Proof/Tests/Slice0.lean ====
section
/-! SUPPORT. Tests. Expected values are spec/95_test_vectors.md's (the vector is named) or worked out by hand from the rule named;
and, for each obligation with hypotheses, a witness: a concrete state and operands that meet them together. -/

namespace Sys2Proof.Tests

open Sys2Proof.Machine

/-! ## Well-formedness: each check refuses an ill-formed term -/

theorem test_wf_writeData_empty : (Instr.writeData []).wf = false := by decide
theorem test_wf_writeData_long : (Instr.writeData (List.replicate 65536 0)).wf = false := by
  simp only [Instr.wf, List.length_replicate]; decide

/-- `CFG0` of 95, with durations 4, 10, 20 and minimums 10, 20. -/
def cfg0 : Params where
  selAssert  := .low
  rstAssert  := .low
  tRstHold   := 4
  tRstPulse  := 10
  tRstSettle := 20
  tPulseMin  := 10
  tSettleMin := 20
  initSeq    := Config.initSeqDefault
  windowSeq  := Config.windowSeqDefault
  codecTable := []
  cmdFraming := .perDirective
  maxChunk   := none
  postReset  := .toUninitialized

theorem test_wf_cfg0 : cfg0.wf = true := by decide
theorem test_wf_pulse : { cfg0 with tRstPulse := 9 }.wf = false := by decide
theorem test_wf_settle : { cfg0 with tRstSettle := 19 }.wf = false := by decide
theorem test_wf_initSeq_order :
    { cfg0 with initSeq := [.setMultiplexRatio 63, .setAddressingMode .horizontal, .setContrast 0, .setSegmentRemap false,
      .setComScanDirection false, .displayOn] }.wf = false := by decide
theorem test_wf_initSeq_last : { cfg0 with initSeq := Config.initSeqDefault ++ [Directive.displayOff] }.wf = false := by decide
theorem test_wf_windowSeq_empty : { cfg0 with windowSeq := [] }.wf = false := by decide
theorem test_wf_maxChunk : { cfg0 with maxChunk := some 0 }.wf = false := by decide

/-! ## Decoding: one word or byte list per constructor, written out from R101, R102 and R109 -/

theorem test_decode_init : decode (.request 0b0001_0000000000000000000000000000#32 []) = .ok .init := by decide
theorem test_decode_resetSeq : decode (.request 0b0010_0000000000000000000000000000#32 []) = .ok .resetSeq := by decide
theorem test_decode_writeCommand : decode (.request 0b0011_00000000000000000000_10101110#32 []) = .ok (.writeCommand 0xAE) := by decide
theorem test_decode_writeData :
    decode (.request 0b0100_000000000000_0000000000000010#32 [0xFF, 0x00]) = .ok (.writeData [0xFF, 0x00]) := by decide
theorem test_decode_update : decode (.request 0b0101_0000000000000000000000000000#32 []) = .ok .update := by decide
theorem test_decode_setPixel :
    decode (.request 0b1000_00000000000_1_00001010_00000101#32 []) = .ok (.setPixel 5 10 true) := by decide
theorem test_decode_setPixel_wide :
    decode (.request 0b1000_00000000000_0_01000000_10000000#32 []) = .ok (.setPixel 128 64 false) := by decide
theorem test_decode_clear : decode (.request 0b1001_0000000000000000000000000000#32 []) = .ok .clear := by decide
theorem test_decode_bulkReplace : (match decode (.request 0b1010_0000000000000000000000000000#32
      ((List.range 1024).map (BitVec.ofNat 8))) with
    | .ok (.bulkReplace p) => p[0] == 0x00#8 && p[255] == 0xFF#8 && p[256] == 0x00#8 && p[1023] == 0xFF#8
    | _ => false) = true := by decide +kernel
theorem test_decode_fbRead : decode (.request 0b1011_000000000000000000_0010000101#32 []) = .ok (.fbRead 133) := by decide
theorem test_decode_displayOff : decode (.directive [0b10101110#8]) = .ok .displayOff := by decide
theorem test_decode_displayOn : decode (.directive [0b10101111#8]) = .ok .displayOn := by decide
theorem test_decode_setContrast : decode (.directive [0b10000001#8, 0b01111111#8]) = .ok (.setContrast 0x7F) := by decide
theorem test_decode_setMultiplexRatio : decode (.directive [0b10101000#8, 0b00111111#8]) = .ok (.setMultiplexRatio 63) := by decide
theorem test_decode_setAddressingMode : decode (.directive [0b00100000#8, 0b00000010#8]) = .ok (.setAddressingMode .page) := by decide
theorem test_decode_setSegmentRemap : decode (.directive [0b10100001#8]) = .ok (.setSegmentRemap true) := by decide
theorem test_decode_setComScanDirection : decode (.directive [0b11001000#8]) = .ok (.setComScanDirection true) := by decide
theorem test_decode_setColumnWindow :
    decode (.directive [0b00100001#8, 0b00000000#8, 0b01111111#8]) = .ok (.setColumnWindow 0 ⟨127, by decide⟩) := by decide
theorem test_decode_setPageWindow :
    decode (.directive [0b00100010#8, 0b00000000#8, 0b00000111#8]) = .ok (.setPageWindow 0 ⟨7, by decide⟩) := by decide
theorem test_decode_setPageStart : decode (.directive [0b10110_111#8]) = .ok (.setPageStart 7) := by decide
theorem test_decode_setColumnStartLow : decode (.directive [0b0000_1111#8]) = .ok (.setColumnStartLow 15) := by decide
theorem test_decode_setColumnStartHigh : decode (.directive [0b0001_0111#8]) = .ok (.setColumnStartHigh 7) := by decide
/-- R160: a window with `s > e` is no window. -/
theorem test_decode_columnWindow_disordered :
    decode (.directive [0b00100001#8, 0b00000101#8, 0b00000100#8]) = .ok (.other 0x21 (.two 5 4)) := by decide
theorem test_decode_other : decode (.directive [0b11010101#8, 0b10000000#8]) = .ok (.other 0xD5 (.one 0x80)) := by decide

/-- The illegal words of 95 section 2.4. -/
theorem test_illegal_words :
    [0x00000000#32, 0x60000000#32, 0x70000000#32, 0xC0000000#32, 0xF0000000#32, 0x10000001#32, 0x50010000#32, 0x30000100#32,
     0x40010002#32, 0x80020000#32, 0xB0000400#32].all (fun w => (selectRow w).isNone) = true := by decide
theorem test_illegal_length : decodeRequest 0x40000000#32 [1] = .error .zeroLength := by decide

/-! ## Small states -/

/-- A framebuffer of equal bytes. -/
def flat (b : Byte) : Memory := { init := Vector.replicate 1024 b, cells := [] }

/-- An idle block of `CFG0` with a framebuffer of zeros. -/
def base : State := { State.resetWith cfg0 with fb := flat 0, req := .clear }

/-- `base` in a session state. -/
def idleIn (st : Session) : State := { base with st := st }

/-- What a step leads to satisfies `f`. -/
def leadsTo (r : StepResult) (f : State → Bool) : Bool :=
  match r with
  | .next t => f t
  | .fault _ => false
  | .refused _ => false

/-- The block of configuration `p` while instruction `i`, accepted in `prev`, is at micro-op `k`. -/
def busyAt (p : Params) (prev : Session) (i : Instr) (k : Nat) : State :=
  let prog := expand p prev (flat 0) i
  { base with
    cfg := p, st := stAfter prev (prog.take k), stPrev := prev, sel := lineAfter .select p.selDeassert (prog.take k),
    mode := lineAfter .mode .low (prog.take k), rst := lineAfter .reset p.rstDeassert (prog.take k), req := i, uprog := prog,
    upc := .running k, trace := okEvents (prog.take k) }

theorem busyAt_inv (p : Params) (prev : Session) (i : Instr) (k : Nat) (h : prev.settled = true)
    (hk : k < (expand p prev (flat 0) i).length) : SequencerInv (busyAt p prev i k) :=
  BusyInv.mk h rfl hk rfl rfl rfl ⟨.low, rfl⟩ ⟨[], .nil, rfl⟩

/-! ## One instruction, one step (or one run of its micro-ops) -/

/-- V-SP-2. -/
theorem test_setPixel_sets : leadsTo (exec (.setPixel 5 10 true) base)
    (fun t => t.fb.read 133 == 0x04 && t.fb.read 132 == 0 && t.res == .ok && t.rspValid) = true := by decide +kernel
/-- V-SP-3. -/
theorem test_setPixel_clears : leadsTo (exec (.setPixel 5 10 false) { base with fb := flat 0xFF })
    (fun t => t.fb.read 133 == 0xFB && t.fb.read 134 == 0xFF) = true := by decide +kernel
/-- V-SP-8. -/
theorem test_setPixel_bounds : leadsTo (exec (.setPixel 128 0 true) base)
    (fun t => t.fb.cells == [] && t.res == .outOfBounds && t.trace == []) = true := by decide +kernel
/-- V-CL-1, bytes 0 and 127. -/
theorem test_clear : leadsTo (exec .clear { base with fb := flat 0xFF })
    (fun t => t.fb.read 0 == 0 && t.fb.read 127 == 0 && t.res == .ok) = true := by decide +kernel
/-- V-BR-1, bytes 0 and 127. -/
theorem test_bulkReplace : leadsTo (exec (.bulkReplace (Vector.replicate 1024 0xFF)) base)
    (fun t => t.fb.read 0 == 0xFF && t.fb.read 127 == 0xFF && t.res == .ok) = true := by decide +kernel
/-- V-RD-1. -/
theorem test_fbRead_written : leadsTo (exec (.fbRead 300) { base with fb := { flat 0 with cells := [(300, 0x2C)] } })
    (fun t => t.rspData == 0x2C && t.res == .ok) = true := by decide +kernel
/-- V-RD-2. -/
theorem test_fbRead : leadsTo (exec (.fbRead 1023) base) (fun t => t.rspData == 0 && t.res == .ok && t.fb.cells == []) = true := by
  decide +kernel
/-- V-INIT-1: 33 micro-ops, 30 events, of which the ninth is `Bus([0x20, 0x00], Ok)`. -/
theorem test_init : leadsTo (exec .init { base with answers := List.replicate 6 .ok })
    (fun a => a.uprog.length == 33 && leadsTo (steps 33 a)
      (fun t => t.st == .ready && t.res == .ok && t.sel == .high && t.mode == .low && t.rst == .high && t.trace.length == 30 &&
        t.trace.take 9 == [.line .reset .high, .delay 4, .line .reset .low, .delay 10, .line .reset .high, .delay 20,
          .line .select .low, .line .mode .low, .bus [0x20, 0x00] .ok] &&
        t.trace.drop 28 == [.bus [0xAF] .ok, .line .select .high])) = true := by decide +kernel
/-- V-INIT-4. -/
theorem test_init_fails : leadsTo (exec .init { base with answers := [.fail] })
    (fun a => leadsTo (steps 11 a)
      (fun t => t.st == .faulted && t.res == .busFailure && t.sel == .high && t.upc == .idle &&
        t.trace.drop 8 == [.bus [0x20, 0x00] .fail, .line .select .high])) = true := by decide +kernel
/-- V-RS-2. -/
theorem test_resetSeq : leadsTo (exec .resetSeq (idleIn .ready))
    (fun a => leadsTo (steps 8 a) (fun t => t.st == .uninitialized && t.res == .ok && t.trace.length == 6 && t.rst == .high)) = true := by
  decide +kernel
/-- V-RS-5, V-RS-6. -/
theorem test_resetSeq_keeps :
    leadsTo (exec .resetSeq { idleIn .ready with cfg := { cfg0 with postReset := .keepPrevious } })
      (fun a => leadsTo (steps 8 a) (fun t => t.st == .ready)) = true ∧
    leadsTo (exec .resetSeq { idleIn .faulted with cfg := { cfg0 with postReset := .keepPrevious } })
      (fun a => leadsTo (steps 8 a) (fun t => t.st == .faulted)) = true := by decide +kernel
/-- V-WC-2. -/
theorem test_writeCommand_fails : leadsTo (exec (.writeCommand 0xAE) { idleIn .ready with answers := [.fail] })
    (fun a => leadsTo (steps 3 a) (fun t => t.st == .faulted && t.res == .busFailure &&
      t.trace == [.line .select .low, .line .mode .low, .bus [0xAE] .fail, .line .select .high])) = true := by decide +kernel
/-- V-WC-3. -/
theorem test_writeCommand_gated : leadsTo (exec (.writeCommand 0xAE) base)
    (fun t => t.st == .uninitialized && t.res == .notInitialized && t.trace == [] && t.upc == .idle) = true := by decide +kernel
/-- V-WD-4: not chunked. -/
theorem test_writeData : leadsTo (exec (.writeData [1, 2, 3, 4, 5, 6])
      { idleIn .ready with cfg := { cfg0 with maxChunk := some 4 }, answers := [.ok] })
    (fun a => leadsTo (steps 4 a) (fun t => t.st == .ready && t.res == .ok &&
      t.trace == [.line .select .low, .line .mode .high, .bus [1, 2, 3, 4, 5, 6] .ok, .line .select .high])) = true := by
  decide +kernel
/-- V-WD-5. -/
theorem test_writeData_empty : leadsTo (step { base with inbox := [.word 0x40000000#32] })
    (fun t => t.res == .illegalRequest && t.inbox == [] && t.trace == []) = true := by decide +kernel
/-- V-UPD-1: 12 events; the last bracket carries the buffer, of which the first byte is looked at. -/
theorem test_update : leadsTo (exec .update { idleIn .ready with fb := flat 0xFF, answers := List.replicate 3 .ok })
    (fun a => leadsTo (steps 12 a) (fun t => t.st == .ready && t.res == .ok && t.mode == .high && t.trace.length == 12 &&
      t.trace[2]? == some (.bus [0x21, 0x00, 0x7F] .ok) && t.trace[6]? == some (.bus [0x22, 0x00, 0x07] .ok) &&
      t.trace[9]? == some (.line .mode .high) &&
      (match (t.trace[10]? : Option Event) with | some (.bus (b :: _) .ok) => b == 0xFF | _ => false))) = true := by decide +kernel
/-- V-UPD-5. -/
theorem test_update_fails : leadsTo (exec .update { idleIn .ready with answers := [.fail] })
    (fun a => leadsTo (steps 3 a) (fun t => t.st == .faulted && t.trace ==
      [.line .select .low, .line .mode .low, .bus [0x21, 0x00, 0x7F] .fail, .line .select .high])) = true := by decide +kernel

/-- A directive's single bracket with the bytes of 95 section 2.5. -/
def sends (d : Instr) (bytes : List Byte) : Bool :=
  leadsTo (exec d { idleIn .ready with answers := [.ok] }) (fun a => leadsTo (steps 4 a)
    (fun t => t.res == .ok && t.trace == [.line .select .low, .line .mode .low, .bus bytes .ok, .line .select .high]))

theorem test_displayOff : sends .displayOff [0xAE] = true := by decide +kernel
theorem test_displayOn : sends .displayOn [0xAF] = true := by decide +kernel
theorem test_setContrast : sends (.setContrast 0xFF) [0x81, 0xFF] = true := by decide +kernel
theorem test_setMultiplexRatio : sends (.setMultiplexRatio 63) [0xA8, 0x3F] = true := by decide +kernel
theorem test_setAddressingMode : sends (.setAddressingMode .vertical) [0x20, 0x01] = true := by decide +kernel
theorem test_setSegmentRemap : sends (.setSegmentRemap true) [0xA1] = true := by decide +kernel
theorem test_setComScanDirection : sends (.setComScanDirection true) [0xC8] = true := by decide +kernel
theorem test_setColumnWindow : sends (.setColumnWindow 0 ⟨127, by decide⟩) [0x21, 0x00, 0x7F] = true := by decide +kernel
theorem test_setPageWindow : sends (.setPageWindow 0 ⟨7, by decide⟩) [0x22, 0x00, 0x07] = true := by decide +kernel
theorem test_setPageStart : sends (.setPageStart 7) [0xB7] = true := by decide +kernel
theorem test_setColumnStartLow : sends (.setColumnStartLow 15) [0x0F] = true := by decide +kernel
theorem test_setColumnStartHigh : sends (.setColumnStartHigh 7) [0x17] = true := by decide +kernel
theorem test_other : sends (.other 0xD5 (.one 0x80)) [0xD5, 0x80] = true := by decide +kernel

/-- 90 C2: no bus transaction that is asked for comes before initialization. -/
theorem test_directive_gated : leadsTo (exec .displayOn base)
    (fun t => t.st == .uninitialized && t.res == .notInitialized && t.trace == [] && t.upc == .idle) = true := by decide +kernel

/-- 95 section 2.6, `PerByte`: 6 frames for the window. -/
theorem test_cmdFrames_perByte : cmdFrames { cfg0 with cmdFraming := .perByte } Config.windowSeqDefault =
    [[0x21], [0x00], [0x7F], [0x22], [0x00], [0x07]] := by decide
/-- 95 section 2.7. -/
theorem test_chunks_300 : (chunks (some 300) (List.replicate 1024 0)).map List.length = [300, 300, 300, 124] := by decide +kernel
theorem test_chunks_1023 : (chunks (some 1023) (List.replicate 1024 0)).map List.length = [1023, 1] := by decide +kernel
/-- 95 section 2.1. -/
theorem test_translator : (pixelIdx 100 37, pixelBit 37, pixelMask 37) = (612, 5, 0x20#8) ∧
    (pixelIdx 127 63, pixelBit 63, pixelMask 63) = (1023, 7, 0x80#8) ∧ (pixelX 133, pixelY 133 2) = (5, 10) := by decide

/-! ## Witnesses: for each obligation with hypotheses, values that meet them together; one for each clause -/

theorem witness_RequestsDecodeToThemselves :
    directiveOf (.writeData [0xFF]) = none ∧ (Instr.writeData [0xFF]).wf = true := by decide
theorem witness_DirectivesDecodeToThemselves :
    ∀ c ps, Directive.setColumnWindow 0 ⟨127, by decide⟩ ≠ .other c ps := nofun
theorem witness_DecodedImagesEncodeBack :
    decode (.request 0xB00003FF#32 []) = .ok (.fbRead 1023) ∧ decode (.directive [0xA6]) = .ok (.other 0xA6 .none) := by decide
theorem witness_StepRunsTheDecodedRequest :
    base.upc = .idle ∧ State.inbox { base with inbox := [.word 0x80010A05#32] } = .word 0x80010A05#32 :: [] ∧
    decodeRequest 0x80010A05#32 base.plIn = .ok (.setPixel 5 10 true, []) := by decide
theorem witness_StepIssuesThePlacedDirective :
    base.upc = .idle ∧ State.inbox { base with inbox := [.directive [0xAE]] } = .directive [0xAE] :: [] ∧
    decode (.directive [0xAE]) = .ok .displayOff := by decide
theorem witness_PlacedTableWordRunsNext : decodeTableWord 32 0x90000000 = some .clear ∧ decodeTableWord 24 0x21007F = some (.setColumnWindow 0 ⟨127, by decide⟩) := by
  decide
theorem witness_IllegalRequestChangesOnlyTheResult_noRow :
    base.upc = .idle ∧ State.inbox { base with inbox := [.word 0#32] } = .word 0#32 :: [] ∧
    ∀ r : RequestRow, 0#32 &&& r.mask ≠ r.pattern := ⟨rfl, rfl, fun r => by cases r <;> decide⟩
theorem witness_IllegalRequestChangesOnlyTheResult_noLength :
    base.upc = .idle ∧ State.inbox { base with inbox := [.word 0x40000000#32] } = .word 0x40000000#32 :: [] := ⟨rfl, rfl⟩
theorem witness_IdleBlockWaitsForAnInput : base.upc = .idle ∧ base.inbox = [] := ⟨rfl, rfl⟩
theorem witness_MissingPayloadStopsTheBlock_bulkReplace :
    base.upc = .idle ∧ State.inbox { base with inbox := [.word 0xA0000000#32] } = .word 0xA0000000#32 :: [] ∧
    (State.plIn { base with plIn := [0xFF] }).length < 1024 := by decide
theorem witness_MissingPayloadStopsTheBlock_writeData :
    base.upc = .idle ∧ State.inbox { base with inbox := [.word 0x40000002#32] } = .word 0x40000002#32 :: [] ∧
    0x40000002#32 = 0x4000#16 ++ 2#16 ∧ (State.plIn { base with plIn := [0xFF] }).length < (2#16).toNat := by decide
/-- The two clauses meet at the last micro-op: index 1 of 2. -/
theorem witness_AdvanceMovesOnOrCompletes :
    0 + 1 < (State.uprog { base with uprog := [.wait 0, .wait 0] }).length ∧
    (State.uprog { base with uprog := [.wait 0, .wait 0] }).length ≤ 1 + 1 := by decide
theorem witness_LineMicroOpWritesItsRegister :
    ((busyAt cfg0 .ready (.writeCommand 0) 0).upc = .running 0 ∧
      (busyAt cfg0 .ready (.writeCommand 0) 0).uprog[0]? = some (.line .select .low)) ∧
    ((busyAt cfg0 .ready (.writeCommand 0) 1).upc = .running 1 ∧
      (busyAt cfg0 .ready (.writeCommand 0) 1).uprog[1]? = some (.line .mode .low)) ∧
    ((busyAt cfg0 .ready .resetSeq 1).upc = .running 1 ∧
      (busyAt cfg0 .ready .resetSeq 1).uprog[1]? = some (.line .reset .high)) := by decide
theorem witness_WaitAndStateMicroOpsTakeEffect :
    ((busyAt cfg0 .ready .resetSeq 2).upc = .running 2 ∧ (busyAt cfg0 .ready .resetSeq 2).uprog[2]? = some (.wait 4)) ∧
    ((busyAt cfg0 .ready .resetSeq 7).upc = .running 7 ∧ (busyAt cfg0 .ready .resetSeq 7).uprog[7]? = some (.state .uninitialized)) := by
  decide
theorem witness_AnsweredBusWriteIsRecorded :
    (busyAt cfg0 .ready (.writeCommand 0xAE) 2).upc = .running 2 ∧
    (busyAt cfg0 .ready (.writeCommand 0xAE) 2).uprog[2]? = some (.tx [0xAE]) ∧
    State.nextAnswer { busyAt cfg0 .ready (.writeCommand 0xAE) 2 with answers := [.ok] } = .ok := by decide
theorem witness_FailedBusWriteEntersFaulted :
    (busyAt cfg0 .ready (.writeCommand 0xAE) 2).upc = .running 2 ∧
    (busyAt cfg0 .ready (.writeCommand 0xAE) 2).uprog[2]? = some (.tx [0xAE]) ∧
    State.nextAnswer { busyAt cfg0 .ready (.writeCommand 0xAE) 2 with answers := [.fail] } = .fail := by decide
/-- Whatever the free answer is, one of the two statements on a bus write speaks of it. -/
theorem witness_bus_write_free_answer :
    (busyAt cfg0 .ready (.writeCommand 0xAE) 2).answers = [] ∧
    ((busyAt cfg0 .ready (.writeCommand 0xAE) 2).nextAnswer = .ok ∨ (busyAt cfg0 .ready (.writeCommand 0xAE) 2).nextAnswer = .fail) :=
  ⟨rfl, by cases (busyAt cfg0 .ready (.writeCommand 0xAE) 2).nextAnswer <;> simp⟩

/-- A step of `busyAt`. -/
theorem step_busyAt {p : Params} {prev : Session} {i : Instr} {k : Nat} {op : MicroOp}
    (h : (expand p prev (flat 0) i)[k]? = some op) :
    step (busyAt p prev i k) = .next (State.runMicroOp k op { busyAt p prev i k with rspValid := false }) := by
  rw [step_busy (k := k) rfl, microStep_some h]

/-- The step of `busyAt` answered `Fail`. -/
theorem step_busyAt_fail {p : Params} {prev : Session} {i : Instr} {k : Nat} {op : MicroOp}
    (h : (expand p prev (flat 0) i)[k]? = some op) :
    step { busyAt p prev i k with answers := [.fail] } =
      .next (State.runMicroOp k op { busyAt p prev i k with rspValid := false, answers := [.fail] }) := by
  rw [step_busy (k := k) rfl, microStep_some h]

theorem witness_BusyBlockTakesNoInput :
    (busyAt cfg0 .ready .resetSeq 0).upc = .running 0 ∧ ∃ t, step (busyAt cfg0 .ready .resetSeq 0) = .next t :=
  ⟨rfl, _, step_busyAt rfl⟩
theorem witness_NoInstructionIsAcceptedWhileBusy : (busyAt cfg0 .ready .resetSeq 0).upc = .running 0 := rfl
theorem witness_TranslatorIsPureWiring : (127#8).toNat < WIDTH ∧ (63#8).toNat < HEIGHT := by decide
theorem witness_TranslatorIsABijection : (1023 < FB_SIZE ∧ 7 < 8) ∧ 127 < WIDTH ∧ 63 < HEIGHT := by decide
theorem witness_SetPixelWritesItsBit :
    base.upc = .idle ∧ base.fb.wf = true ∧ (127#8).toNat < WIDTH ∧ (63#8).toNat < HEIGHT ∧
    (1023 : FbIndex).val = (63#8).toNat / 8 * 128 + (127#8).toNat := by decide
theorem witness_OutOfRangePixelChangesNothing :
    base.upc = .idle ∧ WIDTH ≤ (128#8).toNat ∧ HEIGHT ≤ (64#8).toNat := by decide
theorem witness_ClearYieldsZeroBytes : base.upc = .idle := rfl
theorem witness_BulkReplaceWritesThePayload : base.upc = .idle := rfl
theorem witness_WholeBufferWriteIsTheLoop : (flat 0xFF).wf = true := rfl
theorem witness_FbReadGivesTheByte : base.upc = .idle ∧ (1023 : FbIndex).val = (1023#10).toNat := by decide

/-- A framebuffer with one byte written. -/
def written : State := { base with fb := { flat 0 with cells := [(0, 1)] } }

theorem witness_OnlyMutatorsWriteTheFramebuffer_blockReset :
    ∃ t, step { written with inbox := [.blockReset] } = .next t ∧ t.fb ≠ written.fb :=
  ⟨_, rfl, fun h => by have := congrArg Memory.cells h; revert this; decide⟩
theorem witness_OnlyMutatorsWriteTheFramebuffer_request :
    ∃ t, step { written with inbox := [.word 0x80000000#32] } = .next t ∧ t.fb ≠ written.fb :=
  ⟨_, rfl, fun h => by have := congrArg Memory.cells h; revert this; decide⟩
theorem witness_InitBringsTheBlockToReady :
    base.upc = .idle ∧ base.cfg.wf = true ∧ State.answers { base with answers := List.replicate 6 .ok } =
      List.replicate (cmdFrames cfg0 cfg0.initSeq).length .ok ++ [] := by decide
theorem witness_InitFailureEndsInFaulted :
    base.upc = .idle ∧ cmdFrames cfg0 cfg0.initSeq = [[0x20, 0x00], [0xA8, 0x3F], [0x81, 0x7F], [0xA0], [0xC0]] ++ [0xAF] :: [] ∧
    State.answers { base with answers := [.ok, .ok, .ok, .ok, .ok, .fail] } = List.replicate 5 .ok ++ .fail :: [] := by decide
theorem witness_ResetSeqPulsesTheResetLine :
    (idleIn .faulted).upc = .idle ∧ (idleIn .faulted).st.settled = true ∧ (idleIn .faulted).st = .faulted ∧
    ((idleIn .ready).st.settled = true ∧ (idleIn .ready).upc = .idle ∧ (idleIn .ready).st ≠ .faulted ∧ (idleIn .ready).cfg.postReset = .toUninitialized) ∧
    (State.st { idleIn .ready with cfg := { cfg0 with postReset := .keepPrevious } } ≠ .faulted ∧
      (State.cfg { idleIn .ready with cfg := { cfg0 with postReset := .keepPrevious } }).postReset = .keepPrevious) := by decide
theorem witness_DefaultCodecBytes : cfg0.codecTable = [] := rfl
theorem witness_FramesCarryTheCodecBytes :
    cfg0.cmdFraming = .perDirective ∧ Params.cmdFraming { cfg0 with cmdFraming := .perByte } = .perByte ∧
    [0x20] ∈ cmdFrames { cfg0 with cmdFraming := .perByte } cfg0.initSeq := by decide
theorem witness_TransportBeatsMarkTheLastByte : 0 < [0x21#8, 0x00#8, 0x7F#8].length ∧ 2 < [0x21#8, 0x00#8, 0x7F#8].length := by decide
theorem witness_DirectiveSendsItsCommandTransactions :
    (idleIn .ready).upc = .idle ∧ (idleIn .ready).st = .ready ∧ State.answers { idleIn .ready with answers := [.ok] } =
      List.replicate (cmdFrames cfg0 [.setContrast 0xFF]).length .ok ++ [] := by decide
theorem witness_WriteCommandIsOneCommandTransaction :
    (idleIn .ready).upc = .idle ∧ (idleIn .ready).st = .ready ∧
    State.nextAnswer { idleIn .ready with answers := [.fail] } = .fail := by decide
theorem witness_WriteDataIsOneDataTransaction :
    (idleIn .ready).upc = .idle ∧ (idleIn .ready).st = .ready ∧ [0x01#8] ≠ [] ∧
    State.nextAnswer { idleIn .ready with answers := [.ok] } = .ok := by decide
theorem witness_GatedRequestsAreRefusedOutsideReady :
    (idleIn .faulted).upc = .idle ∧ (idleIn .faulted).st ≠ .ready ∧ (idleIn .uninitialized).st ≠ .ready ∧
    (∃ p, p ≠ [] ∧ Instr.writeData [0x01] = .writeData p) ∧ ∃ d : Directive, Instr.displayOn = d.toInstr :=
  ⟨rfl, by decide, by decide, ⟨[0x01], by decide, rfl⟩, .displayOn, rfl⟩
theorem witness_RefusedWriteDataDropsItsPayload :
    (idleIn .faulted).upc = .idle ∧ (idleIn .faulted).st ≠ .ready ∧ (Instr.writeData [0xAA, 0x55]).wf = true ∧
    State.inbox { idleIn .faulted with inbox := [.word 0x40000002#32] } = .word (0x4000#16 ++ BitVec.ofNat 16 2) :: [] ∧
    State.plIn { idleIn .faulted with plIn := [0xAA, 0x55] } = [0xAA, 0x55] ++ [] := by decide
theorem witness_ChunksPartitionTheBuffer :
    (flat 0).bytes.length = 1024 ∧ 1024 ≤ 1024 ∧ (1 ≤ 1 ∧ 1 ≤ 1023) ∧ (1 ≤ 1023 ∧ 1023 ≤ 1023) ∧
    (1022 + 1 < (1024 + 1 - 1) / 1) ∧ 0 + 1 < (1024 + 1023 - 1) / 1023 := ⟨Memory.bytes_length _, by decide⟩
theorem witness_UpdateSendsTheWindowThenTheFrame :
    (idleIn .ready).upc = .idle ∧ (idleIn .ready).st = .ready ∧ (idleIn .ready).cfg.wf = true ∧
    State.answers { idleIn .ready with answers := List.replicate 3 .ok } =
      List.replicate (updateTxns cfg0 (idleIn .ready).fb).length .ok ++ [] := by decide
theorem witness_UpdatePayloadIsTheFramebuffer :
    (idleIn .ready).upc = .idle ∧ (idleIn .ready).st = .ready ∧ (idleIn .ready).cfg.wf = true ∧
    State.answers { idleIn .ready with answers := List.replicate 3 .ok } =
      List.replicate (updateTxns cfg0 (idleIn .ready).fb).length .ok ++ [] := by decide
theorem witness_UpdateFailureEndsInFaulted :
    (idleIn .ready).upc = .idle ∧ (idleIn .ready).st = .ready ∧
    updateTxns cfg0 (idleIn .ready).fb =
      [(.low, [0x21, 0x00, 0x7F]), (.low, [0x22, 0x00, 0x07])] ++ (.high, (idleIn .ready).fb.bytes) :: [] ∧
    State.answers { idleIn .ready with answers := [.ok, .ok, .fail] } = List.replicate 2 .ok ++ .fail :: [] :=
  ⟨rfl, rfl, rfl, rfl⟩
theorem witness_BlockResetRestoresTheRegisters :
    base.upc = .idle ∧ State.inbox { base with inbox := [.blockReset] } = .blockReset :: [] := ⟨rfl, rfl⟩
theorem witness_StepKeepsTheFramebufferCanonical :
    base.fb.wf = true ∧ ∃ t, step { base with inbox := [.word 0x80010A05#32] } = .next t := ⟨rfl, _, rfl⟩
theorem witness_StepKeepsTheSequencerInvariant :
    SequencerInv (busyAt cfg0 .ready .resetSeq 7) ∧ ∃ t, step (busyAt cfg0 .ready .resetSeq 7) = .next t :=
  ⟨busyAt_inv _ _ _ _ rfl (by decide), _, step_busyAt rfl⟩

/-- No directive of the model's own lane runs in `busyAt` where a host request does. -/
theorem busyAt_lane (p : Params) (prev : Session) (i : Instr) (k : Nat) (h : directiveOf i = none) : HostLane (busyAt p prev i k) :=
  ⟨fun _ hb => (nomatch hb), fun _ _ => h⟩

theorem witness_StepKeepsTheHostLane :
    HostLane (busyAt cfg0 .ready .update 0) ∧ ∃ t, step (busyAt cfg0 .ready .update 0) = .next t :=
  ⟨busyAt_lane _ _ _ _ rfl, _, step_busyAt rfl⟩
/-- An idle block after a reset pulse and a failed transaction. -/
def afterWrite : State :=
  { idleIn .faulted with trace := ([] ++ resetEvents cfg0) ++ txnEvents cfg0 .low .fail [0xAE] }

theorem afterWrite_inv : SequencerInv afterWrite :=
  IdleInv.mk rfl rfl rfl rfl (.txn .low .fail (.reset .nil) (by decide))

theorem witness_EveryBusWriteIsBracketed_idle :
    SequencerInv afterWrite ∧ afterWrite.trace[8]? = some (.bus [0xAE] .fail) ∧
    afterWrite.trace[9]? = some (.line .select afterWrite.cfg.selDeassert) := ⟨afterWrite_inv, rfl, rfl⟩
theorem witness_EveryBusWriteIsBracketed_running :
    SequencerInv (busyAt cfg0 .ready (.writeCommand 0xAE) 3) ∧
    (busyAt cfg0 .ready (.writeCommand 0xAE) 3).trace[2]? = some (.bus [0xAE] .ok) ∧
    2 + 1 = (busyAt cfg0 .ready (.writeCommand 0xAE) 3).trace.length := ⟨busyAt_inv _ _ _ _ rfl (by decide), rfl, rfl⟩
theorem witness_ResetTimingIsHonoured :
    SequencerInv afterWrite ∧ afterWrite.cfg.wf = true ∧
    (4 < 8 ∧ afterWrite.trace[4]? = some (.line .reset .high) ∧ afterWrite.trace[8]? = some (.bus [0xAE] .fail)) ∧
    (2 < 4 ∧ afterWrite.trace[2]? = some (.line .reset afterWrite.cfg.rstAssert) ∧
      afterWrite.trace[4]? = some (.line .reset afterWrite.cfg.rstDeassert)) :=
  ⟨afterWrite_inv, by decide, by decide, by decide⟩

/-- `busyAt` at a bus write meets the hypotheses of `BusWritesHappenSelectedInReadyOrConfiguring`. -/
theorem busyAt_tx {p : Params} {prev : Session} {i : Instr} {k : Nat} {bytes : List Byte} (h : prev.settled = true)
    (hop : (expand p prev (flat 0) i)[k]? = some (.tx bytes)) :
    SequencerInv (busyAt p prev i k) ∧ (busyAt p prev i k).upc = .running k ∧
    (busyAt p prev i k).uprog[k]? = some (.tx bytes) :=
  ⟨busyAt_inv p prev i k h (by by_contra hc; rw [List.getElem?_eq_none (by omega)] at hop; cases hop), rfl, hop⟩

theorem witness_BusWritesHappenSelectedInReadyOrConfiguring_init :
    SequencerInv (busyAt cfg0 .faulted .init 10) ∧
    (busyAt cfg0 .faulted .init 10).upc = .running 10 ∧
    (busyAt cfg0 .faulted .init 10).uprog[10]? = some (.tx [0x20, 0x00]) :=
  busyAt_tx (p := cfg0) (prev := .faulted) (i := .init) (k := 10) (bytes := [0x20, 0x00]) rfl rfl
theorem witness_BusWritesHappenSelectedInReadyOrConfiguring_writeCommand :
    SequencerInv (busyAt cfg0 .ready (.writeCommand 0xAE) 2) ∧
    (busyAt cfg0 .ready (.writeCommand 0xAE) 2).upc = .running 2 ∧
    (busyAt cfg0 .ready (.writeCommand 0xAE) 2).uprog[2]? = some (.tx [0xAE]) :=
  busyAt_tx (p := cfg0) (prev := .ready) (i := .writeCommand 0xAE) (k := 2) (bytes := [0xAE]) rfl rfl
theorem witness_BusWritesHappenSelectedInReadyOrConfiguring_writeData :
    SequencerInv (busyAt cfg0 .ready (.writeData [1, 2]) 2) ∧
    (busyAt cfg0 .ready (.writeData [1, 2]) 2).upc = .running 2 ∧
    (busyAt cfg0 .ready (.writeData [1, 2]) 2).uprog[2]? = some (.tx [1, 2]) :=
  busyAt_tx (p := cfg0) (prev := .ready) (i := .writeData [1, 2]) (k := 2) (bytes := [1, 2]) rfl rfl
theorem witness_BusWritesHappenSelectedInReadyOrConfiguring_update :
    SequencerInv (busyAt cfg0 .ready .update 10) ∧
    (busyAt cfg0 .ready .update 10).upc = .running 10 ∧
    (busyAt cfg0 .ready .update 10).uprog[10]? = some (.tx (flat 0).bytes) :=
  busyAt_tx (p := cfg0) (prev := .ready) (i := .update) (k := 10) (bytes := (flat 0).bytes) rfl rfl
theorem witness_BusWritesHappenSelectedInReadyOrConfiguring_directive :
    SequencerInv (busyAt cfg0 .ready .displayOn 2) ∧
    (busyAt cfg0 .ready .displayOn 2).upc = .running 2 ∧
    (busyAt cfg0 .ready .displayOn 2).uprog[2]? = some (.tx [0xAF]) :=
  busyAt_tx (p := cfg0) (prev := .ready) (i := .displayOn) (k := 2) (bytes := [0xAF]) rfl rfl

/-- A step of `busyAt` at a `STATE` micro-op that changes `st` meets the hypotheses of `SessionStateChangesAlongTheTable`. -/
theorem busyAt_state {p : Params} {prev : Session} {i : Instr} {k : Nat} {x : Session} (h : prev.settled = true)
    (hop : (expand p prev (flat 0) i)[k]? = some (.state x)) (hx : x ≠ (busyAt p prev i k).st) :
    SequencerInv (busyAt p prev i k) ∧
    ∃ t, step (busyAt p prev i k) = .next t ∧ t.st ≠ (busyAt p prev i k).st := by
  refine ⟨busyAt_inv p prev i k h (by by_contra hc; rw [List.getElem?_eq_none (by omega)] at hop; cases hop), _, step_busyAt hop, ?_⟩
  simp only [State.runMicroOp, State.advance]
  split <;> exact hx

/-- The same at a bus write that is answered `Fail`. -/
theorem busyAt_fail {p : Params} {prev : Session} {i : Instr} {k : Nat} {bytes : List Byte} (h : prev.settled = true)
    (hop : (expand p prev (flat 0) i)[k]? = some (.tx bytes))
    (hx : .faulted ≠ (busyAt p prev i k).st) :
    SequencerInv { busyAt p prev i k with answers := [.fail] } ∧
    ∃ t, step { busyAt p prev i k with answers := [.fail] } = .next t ∧ t.st ≠ (busyAt p prev i k).st := by
  have hk : k < (expand p prev (flat 0) i).length := by
    by_contra hc; rw [List.getElem?_eq_none (by omega)] at hop; cases hop
  exact ⟨BusyInv.mk h rfl hk rfl rfl rfl ⟨.low, rfl⟩ ⟨[], .nil, rfl⟩, _, step_busyAt_fail hop, hx⟩

theorem witness_SessionStateChangesAlongTheTable_blockReset :
    SequencerInv { idleIn .faulted with inbox := [.blockReset] } ∧
    ∃ t, step { idleIn .faulted with inbox := [.blockReset] } = .next t ∧ t.st ≠ .faulted :=
  ⟨IdleInv.mk rfl rfl rfl rfl .nil, _, rfl, nofun⟩
theorem witness_SessionStateChangesAlongTheTable_toResetting :
    SequencerInv (busyAt cfg0 .ready .init 0) ∧
    ∃ t, step (busyAt cfg0 .ready .init 0) = .next t ∧ t.st ≠ (busyAt cfg0 .ready .init 0).st :=
  busyAt_state (p := cfg0) (prev := .ready) (i := .init) (k := 0) (x := .resetting) rfl rfl nofun
theorem witness_SessionStateChangesAlongTheTable_toConfiguring :
    SequencerInv (busyAt cfg0 .ready .init 7) ∧
    ∃ t, step (busyAt cfg0 .ready .init 7) = .next t ∧ t.st ≠ (busyAt cfg0 .ready .init 7).st :=
  busyAt_state (p := cfg0) (prev := .ready) (i := .init) (k := 7) (x := .configuring) rfl rfl nofun
theorem witness_SessionStateChangesAlongTheTable_toReady :
    SequencerInv (busyAt cfg0 .faulted .init 32) ∧
    ∃ t, step (busyAt cfg0 .faulted .init 32) = .next t ∧ t.st ≠ (busyAt cfg0 .faulted .init 32).st :=
  busyAt_state (p := cfg0) (prev := .faulted) (i := .init) (k := 32) (x := .ready) rfl rfl nofun
theorem witness_SessionStateChangesAlongTheTable_initFails :
    SequencerInv { busyAt cfg0 .ready .init 10 with answers := [.fail] } ∧
    ∃ t, step { busyAt cfg0 .ready .init 10 with answers := [.fail] } = .next t ∧ t.st ≠ (busyAt cfg0 .ready .init 10).st :=
  busyAt_fail (p := cfg0) (prev := .ready) (i := .init) (k := 10) (bytes := [0x20, 0x00]) rfl rfl nofun
theorem witness_SessionStateChangesAlongTheTable_resetEnds :
    SequencerInv (busyAt cfg0 .faulted .resetSeq 7) ∧
    ∃ t, step (busyAt cfg0 .faulted .resetSeq 7) = .next t ∧ t.st ≠ (busyAt cfg0 .faulted .resetSeq 7).st :=
  busyAt_state (p := cfg0) (prev := .faulted) (i := .resetSeq) (k := 7) (x := .faulted) rfl rfl nofun
theorem witness_SessionStateChangesAlongTheTable_writeFails :
    SequencerInv { busyAt cfg0 .ready (.writeData [1]) 2 with answers := [.fail] } ∧
    ∃ t, step { busyAt cfg0 .ready (.writeData [1]) 2 with answers := [.fail] } = .next t ∧ t.st ≠ (busyAt cfg0 .ready (.writeData [1]) 2).st :=
  busyAt_fail (p := cfg0) (prev := .ready) (i := .writeData [1]) (k := 2) (bytes := [1]) rfl rfl nofun
theorem witness_SessionStateChangesAlongTheTable_directiveFails :
    SequencerInv { busyAt cfg0 .ready .displayOn 2 with answers := [.fail] } ∧
    ∃ t, step { busyAt cfg0 .ready .displayOn 2 with answers := [.fail] } = .next t ∧ t.st ≠ (busyAt cfg0 .ready .displayOn 2).st :=
  busyAt_fail (p := cfg0) (prev := .ready) (i := .displayOn) (k := 2) (bytes := [0xAF]) rfl rfl nofun
theorem witness_OnlyASuccessfulInitLeavesFaulted :
    SequencerInv (busyAt cfg0 .faulted .init 32) ∧ (busyAt cfg0 .faulted .init 32).upc = .running 32 ∧
    (busyAt cfg0 .faulted .init 32).stPrev = .faulted ∧
    (∃ t, step (busyAt cfg0 .faulted .init 32) = .next t ∧ t.upc = .idle ∧ t.st ≠ .faulted) ∧
    ∃ t, exec .init base = .next t :=
  ⟨busyAt_inv _ _ _ _ rfl (by decide), rfl, rfl, ⟨_, step_busyAt rfl, rfl, nofun⟩, _, rfl⟩
theorem witness_EveryRequestEndsWithOneResponse :
    (busyAt cfg0 .ready .resetSeq 7).upc = .running 7 ∧ 7 < (busyAt cfg0 .ready .resetSeq 7).uprog.length := by decide
theorem witness_ResultCodeInfluencesNothing : ∃ t, step base = .next t := ⟨_, rfl⟩
theorem witness_LineRegistersInfluenceNothing : ∃ t, step (busyAt cfg0 .ready .resetSeq 1) = .next t := ⟨_, step_busyAt rfl⟩

end Sys2Proof.Tests
end

section
/-! SUPPORT. Proofs about the state: the step of an idle block by its input, what every step leaves alone, and where the session
state changes. -/

namespace Sys2Proof.Machine

/-! ### The step of an idle block, by its next input -/

theorem step_waiting {s : State} (hu : s.upc = .idle) (hi : s.inbox = []) : step s = .next { s with rspValid := false } := by
  simp only [step_idle hu, fetch, hi]

theorem step_blockReset {s : State} {inputs : List Input} (hu : s.upc = .idle) (hi : s.inbox = .blockReset :: inputs) :
    step s = .next (State.blockReset { s with inbox := inputs }) := by
  simp only [step_idle hu, fetch, hi]

theorem step_request {s : State} {w : Word} {inputs : List Input} {i : Instr} {rest : List Byte} (hu : s.upc = .idle)
    (hi : s.inbox = .word w :: inputs) (hd : decodeRequest w s.plIn = .ok (i, rest)) :
    step s = exec i { s with inbox := inputs, plIn := rest } := by
  simp only [step_idle hu, fetch, fetchWord, hi, hd]

theorem step_directive {s : State} {bytes : List Byte} {inputs : List Input} {i : Instr} (hu : s.upc = .idle)
    (hi : s.inbox = .directive bytes :: inputs) (hd : decodeDirective bytes = .ok i) :
    step s = exec i { s with inbox := inputs } := by
  simp only [step_idle hu, fetch, hi, hd]

/-- A word that the decoder rejects stops the block, if it lacks its payload, or is answered as illegal. -/
theorem step_rejected {s : State} {w : Word} {inputs : List Input} {e : Reject} (hu : s.upc = .idle)
    (hi : s.inbox = .word w :: inputs) (hd : decodeRequest w s.plIn = .error e) :
    step s = if e = .payloadShort then .fault .payloadStarved else .next (State.answerIllegal { s with inbox := inputs }) := by
  simp only [step_idle hu, fetch, fetchWord, hi, hd]
  cases e <;> rfl

/-! ### The directives of the model's own lane -/

theorem exec_toInstr (d : Directive) (s : State) : exec d.toInstr s = issue d s := by cases d <;> rfl

theorem eq_toInstr_of_directiveOf {i : Instr} {d : Directive} (h : directiveOf i = some d) : i = d.toInstr := by
  cases i <;> cases h <;> rfl

theorem expand_toInstr (p : Params) (prev : Session) (m : Memory) (d : Directive) :
    expand p prev m d.toInstr = whenReady prev (directiveProgram p d) := by
  cases d <;> rfl

/-! ### What every step leaves alone -/

/-- What the step of a busy block leaves unchanged (spec/10_state.md R29, R31, R34). -/
structure BusyFrame (s t : State) : Prop where
  inbox  : t.inbox = s.inbox
  plIn   : t.plIn = s.plIn
  fb     : t.fb = s.fb
  req    : t.req = s.req
  stPrev : t.stPrev = s.stPrev
  cfg    : t.cfg = s.cfg
  resets : t.resets = s.resets

theorem runMicroOp_frame (k : Nat) (op : MicroOp) (s : State) : BusyFrame s (s.runMicroOp k op) := by
  obtain ⟨answers, draws, h⟩ | ⟨bytes, answers, draws, -, h⟩ := runMicroOp_cases k op s <;> rw [h]
  · constructor <;> simp [State.afterOk]
  · constructor <;> rfl

theorem step_busy_frame {s t : State} {k : Nat} (hk : s.upc = .running k) (h : step s = .next t) : BusyFrame s t := by
  rw [step_busy hk] at h
  unfold microStep at h
  split at h
  · rename_i op _
    obtain rfl := Host.Outcome.next.inj h
    obtain ⟨hinbox, hpl, hfb, hreq, hprev, hcfg, hresets⟩ := runMicroOp_frame k op { s with rspValid := false }
    exact ⟨hinbox, hpl, hfb, hreq, hprev, hcfg, hresets⟩
  · cases h

theorem Accepted.cfg {i : Instr} {s t : State} (h : Accepted i s t) : t.cfg = s.cfg := by
  cases h <;> subst t <;> simp

theorem Accepted.st {i : Instr} {s t : State} (h : Accepted i s t) : t.st = s.st := by
  cases h <;> subst t <;> simp

theorem Accepted.inbox {i : Instr} {s t : State} (h : Accepted i s t) : t.inbox = s.inbox := by
  cases h <;> subst t <;> simp

theorem Accepted.fb_wf {i : Instr} {s t : State} (h : Accepted i s t) (hw : s.fb.wf = true) : t.fb.wf = true := by
  cases h with
  | stored m hi hm => subst t; exact hm hw
  | done | loaded | illegal => subst t; simpa using hw

/-- What runs after an acceptance is the accepted instruction. -/
theorem Accepted.req_of_running {i : Instr} {s t : State} {k : Nat} (h : Accepted i s t) (hk : t.upc = .running k) :
    t.req = i := by
  cases h with
  | illegal hi => subst t; cases hk
  | done | stored | loaded => subst t; simp

/-- Settles O17: a micro-op writes none of these fields. -/
theorem busyBlockTakesNoInput : Obligations.BusyBlockTakesNoInput := by
  intro s t k hk h
  obtain ⟨hinbox, hpl, hfb, hreq, hprev, hcfg, hresets⟩ := step_busy_frame hk h
  exact ⟨hinbox, hpl, hfb, hreq, hprev, hcfg, hresets⟩

/-- Settles O49, by what the block does in the step: only an acceptance and a block reset write FB, each in canonical form. -/
theorem stepKeepsTheFramebufferCanonical : Obligations.StepKeepsTheFramebufferCanonical := by
  intro s t hw h
  cases step_next h with
  | micro k op hk =>
    have hf := step_busy_frame hk h
    exact ⟨hf.fb ▸ hw, hf.cfg⟩
  | waiting _ _ ht => subst t; exact ⟨hw, rfl⟩
  | blockReset inputs _ _ ht => subst t; exact ⟨freshMemory_wf _, rfl⟩
  | illegal w inputs _ _ ht => subst t; exact ⟨hw, rfl⟩
  | request w inputs i rest _ _ _ ht =>
    obtain ⟨-, ha⟩ := exec_next ht
    exact ⟨ha.fb_wf hw, ha.cfg⟩
  | directive bytes inputs i _ _ _ ht =>
    obtain ⟨-, ha⟩ := exec_next ht
    exact ⟨ha.fb_wf hw, ha.cfg⟩

/-- Settles O52: what a step adds to the running request comes from a request word, which spells no directive. -/
theorem stepKeepsTheHostLane : Obligations.StepKeepsTheHostLane := by
  intro s t hl h
  obtain ⟨hin, hreq⟩ := hl
  cases step_next h with
  | micro k op hk =>
    have hf := step_busy_frame hk h
    exact ⟨hf.inbox ▸ hin, fun _ _ => hf.req ▸ hreq k hk⟩
  | waiting hu _ ht => subst t; exact ⟨hin, hreq⟩
  | blockReset inputs _ hi ht =>
    subst t
    exact ⟨fun bytes hb => hin bytes (hi ▸ List.mem_cons_of_mem _ hb), nofun⟩
  | illegal w inputs _ hi ht =>
    subst t
    exact ⟨fun bytes hb => hin bytes (hi ▸ List.mem_cons_of_mem _ hb), nofun⟩
  | request w inputs i rest _ hi hd ht =>
    obtain ⟨-, ha⟩ := exec_next ht
    refine ⟨fun bytes hb => hin bytes (hi ▸ List.mem_cons_of_mem _ ?_), fun k hk => ?_⟩
    · rw [ha.inbox] at hb; exact hb
    · rw [ha.req_of_running hk]
      exact decodeRequest_host hd
  | directive bytes inputs i _ hi => exact absurd (hi ▸ List.mem_cons_self) (hin bytes)

/-! ### Where micro-ops stand in a micro-program -/

/-- A micro-op that is none of `A` stands in `A ++ y :: B` as `y` itself or behind it. -/
theorem split_after {A B pre post : List MicroOp} {y op : MicroOp} (hA : op ∉ A) (h : A ++ y :: B = pre ++ op :: post) :
    (pre = A ∧ op = y ∧ post = B) ∨ ∃ pre', pre = A ++ y :: pre' ∧ B = pre' ++ op :: post := by
  obtain ⟨c, rfl, hc⟩ | ⟨c, rfl, hc⟩ := List.append_eq_append_iff.1 h
  · cases c with
    | nil => obtain ⟨rfl, rfl⟩ := List.cons.inj hc; exact .inl ⟨by simp, rfl, rfl⟩
    | cons z c => obtain ⟨rfl, rfl⟩ := List.cons.inj hc; exact .inr ⟨c, rfl, rfl⟩
  · cases c with
    | nil => obtain ⟨rfl, rfl⟩ := List.cons.inj hc; exact .inl ⟨by simp, rfl, rfl⟩
    | cons z c => obtain ⟨rfl, rfl⟩ := List.cons.inj hc; exact absurd (by simp) hA

/-- Micro-ops without a `STATE` leave the session state as it is. -/
theorem stAfter_of_no_state {ops : List MicroOp} (h : ∀ x, .state x ∉ ops) (s : Session) : stAfter s ops = s := by
  induction ops with
  | nil => rfl
  | cons op rest ih =>
    have hrest : ∀ x, .state x ∉ rest := fun x hx => h x (List.mem_cons_of_mem _ hx)
    cases op with
    | state x => exact absurd List.mem_cons_self (h x)
    | line | wait | tx => exact ih hrest

theorem state_notMem_txnsProgram (p : Params) (txns : List (Level × List Byte)) (x : Session) :
    .state x ∉ txnsProgram p txns := by
  simp [txnsProgram, txn]

/-- The requests that need `Ready`: `UPDATE`, `WRITE_COMMAND`, `WRITE_DATA` and the directives of the model's own lane
(spec/60_exceptions.md R253; log entry 9). -/
def NeedsReady (i : Instr) : Prop :=
  i = .update ∨ (∃ b, i = .writeCommand b) ∨ (∃ q, i = .writeData q) ∨ ∃ d : Directive, i = d.toInstr

theorem whenReady_eq_txnsProgram {p : Params} {prog : List MicroOp} {i : Instr} (prev : Session)
    (txns : List (Level × List Byte)) (hp : prog = txnsProgram p txns) (hn : NeedsReady i) :
    ∃ txns, whenReady prev prog = txnsProgram p txns ∧ (txns ≠ [] → prev = .ready ∧ NeedsReady i) := by
  cases prev with
  | ready => exact ⟨txns, hp, fun _ => ⟨rfl, hn⟩⟩
  | uninitialized | resetting | configuring | faulted => exact ⟨[], rfl, fun h => absurd rfl h⟩

/-- The micro-programs of the requests other than `INIT` and `RESET_SEQ` are transactions, and there are some only for the requests
that need `Ready`, accepted there. -/
theorem expand_eq_txnsProgram (p : Params) (prev : Session) (m : Memory) {i : Instr} (hi : i ≠ .init) (hr : i ≠ .resetSeq) :
    ∃ txns, expand p prev m i = txnsProgram p txns ∧ (txns ≠ [] → prev = .ready ∧ NeedsReady i) := by
  cases hd : directiveOf i with
  | some d =>
    obtain rfl := eq_toInstr_of_directiveOf hd
    rw [expand_toInstr]
    exact whenReady_eq_txnsProgram prev _ (cmdTxns_eq p _) (.inr (.inr (.inr ⟨d, rfl⟩)))
  | none =>
    cases i with
    | init => exact absurd rfl hi
    | resetSeq => exact absurd rfl hr
    | update => exact whenReady_eq_txnsProgram prev _ (updateProgram_eq p m) (.inl rfl)
    | writeCommand b => exact whenReady_eq_txnsProgram prev [(MODE_CMD, [b])] rfl (.inr (.inl ⟨b, rfl⟩))
    | writeData q =>
      cases q with
      | nil => exact ⟨[], rfl, fun h => absurd rfl h⟩
      | cons b rest => exact whenReady_eq_txnsProgram prev [(MODE_DATA, b :: rest)] rfl (.inr (.inr (.inl ⟨_, rfl⟩)))
    | setPixel | clear | bulkReplace | fbRead => exact ⟨[], rfl, fun h => absurd rfl h⟩
    | displayOff | displayOn | setContrast | setMultiplexRatio | setAddressingMode | setSegmentRemap | setComScanDirection
    | setColumnWindow | setPageWindow | setPageStart | setColumnStartLow | setColumnStartHigh | other => cases hd

theorem initProgram_eq (p : Params) : ∃ txns, initProgram p =
    .state .resetting :: (resetTiming p ++ .state .configuring :: (txnsProgram p txns ++ [.state .ready])) :=
  ⟨(cmdFrames p p.initSeq).map (Level.low, ·), by
    simp only [initProgram, cmdTxns_eq, List.append_assoc, List.cons_append, List.nil_append]⟩

theorem resetSeqProgram_eq (p : Params) (prev : Session) :
    resetSeqProgram p prev = .state .resetting :: (resetTiming p ++ [.state (postState p prev)]) := rfl

theorem state_notMem_resetTiming (p : Params) (x : Session) : .state x ∉ resetTiming p := by simp [resetTiming]

theorem tx_notMem_resetTiming (p : Params) (bytes : List Byte) : .tx bytes ∉ resetTiming p := by simp [resetTiming]

@[simp] theorem stAfter_resetTiming (s : Session) (p : Params) : stAfter s (resetTiming p) = s := rfl

theorem postState_settled (p : Params) {prev : Session} (h : prev.settled = true) : (postState p prev).settled = true := by
  cases prev with
  | faulted => rfl
  | uninitialized | ready => cases hp : p.postReset <;> simp [postState, hp, Session.settled]
  | resetting | configuring => cases h

/-- The three `STATE`s of `INIT` (spec/42_init_state_machine.md R181). -/
theorem state_in_initProgram {p : Params} {pre post : List MicroOp} {x : Session} (prev : Session)
    (h : initProgram p = pre ++ .state x :: post) :
    (pre = [] ∧ x = .resetting) ∨ (stAfter prev pre = .resetting ∧ x = .configuring) ∨
    (stAfter prev pre = .configuring ∧ x = .ready ∧ post = []) := by
  obtain ⟨txns, hp⟩ := initProgram_eq p
  rw [hp, ← List.nil_append (_ :: _)] at h
  obtain ⟨rfl, e, -⟩ | ⟨pre, rfl, h1⟩ := split_after List.not_mem_nil h
  · cases e; exact .inl ⟨rfl, rfl⟩
  obtain ⟨rfl, e, -⟩ | ⟨pre, rfl, h2⟩ := split_after (state_notMem_resetTiming p x) h1
  · cases e; exact .inr (.inl ⟨rfl, rfl⟩)
  obtain ⟨rfl, e, rfl⟩ | ⟨pre, rfl, h3⟩ := split_after (state_notMem_txnsProgram p txns x) h2
  · cases e; exact .inr (.inr ⟨by simp [stAfter], rfl, rfl⟩)
  · simp at h3

/-- The two `STATE`s of `RESET_SEQ` (R191). -/
theorem state_in_resetSeqProgram {p : Params} {prev x : Session} {pre post : List MicroOp}
    (h : resetSeqProgram p prev = pre ++ .state x :: post) :
    (pre = [] ∧ x = .resetting) ∨ (stAfter prev pre = .resetting ∧ x = postState p prev ∧ post = []) := by
  rw [resetSeqProgram_eq, ← List.nil_append (_ :: _)] at h
  obtain ⟨rfl, e, -⟩ | ⟨pre, rfl, h1⟩ := split_after List.not_mem_nil h
  · cases e; exact .inl ⟨rfl, rfl⟩
  obtain ⟨rfl, e, rfl⟩ | ⟨pre, rfl, h2⟩ := split_after (state_notMem_resetTiming p x) h1
  · cases e; exact .inr ⟨rfl, rfl, rfl⟩
  · simp at h2

/-- The bus writes of `INIT` happen in `Configuring`. -/
theorem tx_in_initProgram {p : Params} {pre post : List MicroOp} {bytes : List Byte} (prev : Session)
    (h : initProgram p = pre ++ .tx bytes :: post) : stAfter prev pre = .configuring := by
  obtain ⟨txns, hp⟩ := initProgram_eq p
  rw [hp, ← List.nil_append (_ :: _)] at h
  obtain ⟨-, e, -⟩ | ⟨pre, rfl, h1⟩ := split_after List.not_mem_nil h
  · cases e
  obtain ⟨-, e, -⟩ | ⟨pre, rfl, h2⟩ := split_after (tx_notMem_resetTiming p bytes) h1
  · cases e
  obtain ⟨c, rfl, hc⟩ | ⟨c, hc, -⟩ := List.append_eq_append_iff.1 h2
  · rcases c with _ | ⟨_, _ | _⟩ <;> simp at hc
  · have hpre : ∀ x, .state x ∉ pre := fun x hx =>
      state_notMem_txnsProgram p txns x (hc ▸ List.mem_append_left c hx)
    simp [stAfter, stAfter_of_no_state hpre]

/-- `RESET_SEQ` makes no bus write. -/
theorem tx_notMem_resetSeqProgram (p : Params) (prev : Session) (bytes : List Byte) : .tx bytes ∉ resetSeqProgram p prev := by
  simp [resetSeqProgram_eq, tx_notMem_resetTiming]

/-- Every `STATE` of a micro-program changes the session state along the table of spec/10_state.md R25. -/
theorem state_in_expand {p : Params} {prev x : Session} {m : Memory} {i : Instr} {pre post : List MicroOp}
    (hprev : prev.settled = true) (h : expand p prev m i = pre ++ .state x :: post) :
    ((stAfter prev pre).settled = true ∧ x = .resetting ∧ (i = .init ∨ i = .resetSeq)) ∨
    (stAfter prev pre = .resetting ∧ x = .configuring ∧ i = .init) ∨
    (stAfter prev pre = .configuring ∧ x = .ready ∧ i = .init ∧ post = []) ∨
    (stAfter prev pre = .resetting ∧ x.settled = true ∧ i = .resetSeq ∧ post = []) := by
  by_cases hi : i = .init
  · subst hi
    obtain ⟨rfl, rfl⟩ | ⟨hst, rfl⟩ | ⟨hst, rfl, rfl⟩ := state_in_initProgram prev h
    · exact .inl ⟨hprev, rfl, .inl rfl⟩
    · exact .inr (.inl ⟨hst, rfl, rfl⟩)
    · exact .inr (.inr (.inl ⟨hst, rfl, rfl, rfl⟩))
  by_cases hr : i = .resetSeq
  · subst hr
    obtain ⟨rfl, rfl⟩ | ⟨hst, rfl, rfl⟩ := state_in_resetSeqProgram h
    · exact .inl ⟨hprev, rfl, .inr rfl⟩
    · exact .inr (.inr (.inr ⟨hst, postState_settled p hprev, rfl, rfl⟩))
  · obtain ⟨txns, ht, -⟩ := expand_eq_txnsProgram p prev m hi hr
    exact absurd (by rw [← ht, h]; simp) (state_notMem_txnsProgram p txns x)

/-- Every bus write of a micro-program happens in `Configuring`, of an `INIT`, or in `Ready`. -/
theorem tx_in_expand {p : Params} {prev : Session} {m : Memory} {i : Instr} {pre post : List MicroOp} {bytes : List Byte}
    (h : expand p prev m i = pre ++ .tx bytes :: post) :
    (stAfter prev pre = .configuring ∧ i = .init) ∨ (stAfter prev pre = .ready ∧ NeedsReady i) := by
  by_cases hi : i = .init
  · subst hi
    exact .inl ⟨tx_in_initProgram prev h, rfl⟩
  by_cases hr : i = .resetSeq
  · subst hr
    have hx : resetSeqProgram p prev = pre ++ .tx bytes :: post := h
    exact absurd (by rw [hx]; simp) (tx_notMem_resetSeqProgram p prev bytes)
  · obtain ⟨txns, ht, hready⟩ := expand_eq_txnsProgram p prev m hi hr
    rw [ht] at h
    obtain ⟨before, lvl, after, rfl, rfl⟩ := txnsProgram_split h
    obtain ⟨rfl, hn⟩ := hready (by simp)
    exact .inr ⟨by simp [stAfter], hn⟩

/-! ### The session state -/

theorem uprog_eq_take_append {l : List MicroOp} {k : Nat} {op : MicroOp} (h : l[k]? = some op) :
    l = l.take k ++ op :: l.drop (k + 1) := by
  obtain ⟨hk, rfl⟩ := List.getElem?_eq_some_iff.1 h
  rw [List.getElem_cons_drop, List.take_append_drop]

theorem SequencerInv.busy {s : State} {k : Nat} (h : SequencerInv s) (hk : s.upc = .running k) : BusyInv k s := by
  simpa only [SequencerInv, hk] using h

/-- A micro-op changes the session state as a `STATE`, or as a failed bus write. -/
theorem runMicroOp_st (k : Nat) (op : MicroOp) (s : State) :
    ((s.runMicroOp k op).st = stAfter s.st [op]) ∨
    (∃ bytes, op = .tx bytes ∧ (s.runMicroOp k op).st = .faulted ∧ (s.runMicroOp k op).res = .busFailure) := by
  obtain ⟨answers, draws, h⟩ | ⟨bytes, answers, draws, hop, h⟩ := runMicroOp_cases k op s <;> rw [h]
  · exact .inl (by simp [State.afterOk])
  · exact .inr ⟨bytes, hop, rfl, rfl⟩

/-- The last micro-op ends the request with `Ok`, if it is a `STATE`. -/
theorem runMicroOp_last_state {s : State} {k : Nat} (x : Session) (h : s.uprog.drop (k + 1) = []) :
    s.runMicroOp k (.state x) = State.complete .ok 0 { s with st := x } :=
  State.advance_last (List.drop_eq_nil_iff.1 h)

/-- Settles O56: an acceptance keeps `st`; a micro-op that changes it is a `STATE` or a failed bus write, and where those stand in
the micro-programs is `state_in_expand` and `tx_in_expand`. -/
theorem sessionStateChangesAlongTheTable : Obligations.SessionStateChangesAlongTheTable := by
  intro s t hs h hne
  cases step_next h with
  | micro k op hk hop ht =>
    obtain ⟨hprev, hprog, -, hst, -⟩ := hs.busy hk
    have hsplit := hprog.symm.trans (uprog_eq_take_append hop)
    obtain hok | ⟨bytes, rfl, hfaulted, hres⟩ := runMicroOp_st k op { s with rspValid := false }
    · rw [← ht] at hok
      cases op with
      | line | wait | tx => exact absurd hok hne
      | state x =>
        have hto : t.st = x := hok
        obtain ⟨hfrom, hx, hreq⟩ | ⟨hfrom, hx, hreq⟩ | ⟨hfrom, hx, hreq, hend⟩ | ⟨hfrom, hx, hreq, hend⟩ :=
          state_in_expand hprev hsplit <;> rw [← hst] at hfrom <;> rw [← hto] at hx
        · exact .inr (.inl ⟨hfrom, hx, hreq⟩)
        · exact .inr (.inr (.inl ⟨hfrom, hx, hreq⟩))
        · have hdone := ht.trans (runMicroOp_last_state x hend)
          exact .inr (.inr (.inr (.inl ⟨hfrom, hx, hreq, by rw [hdone]; rfl, by rw [hdone]; rfl⟩)))
        · have hdone := ht.trans (runMicroOp_last_state x hend)
          exact .inr (.inr (.inr (.inr (.inr (.inl ⟨hfrom, hx, hreq, by rw [hdone]; rfl, by rw [hdone]; rfl⟩)))))
    · rw [← ht] at hfaulted hres
      obtain ⟨hfrom, hreq⟩ | ⟨hfrom, hreq⟩ := tx_in_expand hsplit <;> rw [← hst] at hfrom
      · exact .inr (.inr (.inr (.inr (.inl ⟨hfrom, hfaulted, hreq, hres⟩))))
      · exact .inr (.inr (.inr (.inr (.inr (.inr ⟨hfrom, hfaulted, hres, hreq⟩)))))
  | waiting _ _ ht => subst t; exact absurd rfl hne
  | blockReset inputs hu hi ht => subst t; exact .inl ⟨hu, by rw [hi]; rfl, rfl⟩
  | illegal w inputs _ _ ht => subst t; exact absurd rfl hne
  | request w inputs i rest _ _ _ ht => exact absurd (exec_next ht).2.st hne
  | directive bytes inputs i _ _ _ ht => exact absurd (exec_next ht).2.st hne

end Sys2Proof.Machine
end

section
/-! SUPPORT. Proofs about runs: how a running request ends, and that no rule reads `res` or the line registers. -/

namespace Sys2Proof.Machine

/-! ### A running request ends -/

theorem State.advance_ends_or_goes_on (k : Nat) (s : State) :
    ((s.advance k).upc = .idle ∧ (s.advance k).rspValid = true) ∨
    ((s.advance k).upc = .running (k + 1) ∧ k + 1 < s.uprog.length ∧ (s.advance k).uprog = s.uprog ∧
      (s.advance k).rspValid = s.rspValid) := by
  by_cases h : k + 1 < s.uprog.length
  · rw [State.advance_more h]
    exact .inr ⟨rfl, h, rfl, rfl⟩
  · rw [State.advance_last (Nat.not_lt.1 h)]
    exact .inl ⟨rfl, rfl⟩

/-- The step of a block whose micro-op `k` is about to run ends the request with its response, or goes on to the next micro-op
without one. -/
theorem step_running {s : State} {k : Nat} (hu : s.upc = .running k) (hk : k < s.uprog.length) :
    ∃ t, step s = .next t ∧ ((t.upc = .idle ∧ t.rspValid = true) ∨
      (t.upc = .running (k + 1) ∧ k + 1 < s.uprog.length ∧ t.uprog = s.uprog ∧ t.rspValid = false)) := by
  refine ⟨_, (step_busy hu).trans (microStep_some (List.getElem?_eq_getElem hk)), ?_⟩
  obtain ⟨answers, draws, h⟩ | ⟨bytes, answers, draws, -, h⟩ := runMicroOp_cases k s.uprog[k] { s with rspValid := false } <;>
    rw [h]
  · exact State.advance_ends_or_goes_on k _
  · exact .inl ⟨rfl, rfl⟩

/-- Settles O58, by induction on the number of micro-ops left. -/
theorem everyRequestEndsWithOneResponse : Obligations.EveryRequestEndsWithOneResponse := by
  intro s k hu hk
  induction hleft : s.uprog.length - k generalizing s k with
  | zero => omega
  | succ left ih =>
    obtain ⟨t, hstep, ⟨hidle, hrsp⟩ | ⟨hrun, hmore, hprog, hquiet⟩⟩ := step_running hu hk
    · exact ⟨1, t, by omega, by omega, steps_one hstep, hidle, hrsp, fun m _ _ => by omega⟩
    · obtain ⟨n, u, -, hn, hsteps, hidle, hrsp, hbefore⟩ :=
        ih t (k + 1) hrun (by rw [hprog]; exact hmore) (by rw [hprog]; omega)
      refine ⟨n + 1, u, by omega, by omega, (steps_succ n hstep).trans hsteps, hidle, hrsp, fun m hm hlt => ?_⟩
      obtain rfl | ⟨m, rfl⟩ : m = 1 ∨ ∃ j, m = j + 2 := by
        obtain _ | _ | j := m
        · omega
        · exact .inl rfl
        · exact .inr ⟨j, rfl⟩
      · exact ⟨t, steps_one hstep, hquiet, k + 1, hrun⟩
      · rw [steps_succ (m + 1) hstep]
        exact hbefore (m + 1) (by omega) (by omega)

/-! ### The registers that no rule reads -/

/-- The two groups of registers that no rule reads: `res` (spec/10_state.md R32) and the line registers (R28). -/
inductive Unread where
  | res
  | lines

/-- `s` with the registers `g` as they are in `v`. -/
def State.borrow (s : State) (g : Unread) (v : State) : State :=
  match g with
  | .res => { s with res := v.res }
  | .lines => { s with sel := v.sel, mode := v.mode, rst := v.rst }

/-- `s'` is `s` but for the registers `g`. -/
def Alike (g : Unread) (s s' : State) : Prop := ∃ v, s' = s.borrow g v

namespace Alike

variable {g : Unread} {s s' : State}

theorem upc (h : Alike g s s') : s'.upc = s.upc := by obtain ⟨v, rfl⟩ := h; cases g <;> rfl
theorem uprog (h : Alike g s s') : s'.uprog = s.uprog := by obtain ⟨v, rfl⟩ := h; cases g <;> rfl
theorem inbox (h : Alike g s s') : s'.inbox = s.inbox := by obtain ⟨v, rfl⟩ := h; cases g <;> rfl
theorem plIn (h : Alike g s s') : s'.plIn = s.plIn := by obtain ⟨v, rfl⟩ := h; cases g <;> rfl
theorem cfg (h : Alike g s s') : s'.cfg = s.cfg := by obtain ⟨v, rfl⟩ := h; cases g <;> rfl
theorem st (h : Alike g s s') : s'.st = s.st := by obtain ⟨v, rfl⟩ := h; cases g <;> rfl
theorem fb (h : Alike g s s') : s'.fb = s.fb := by obtain ⟨v, rfl⟩ := h; cases g <;> rfl
theorem nextAnswer (h : Alike g s s') : s'.nextAnswer = s.nextAnswer := by obtain ⟨v, rfl⟩ := h; cases g <;> rfl

/-- An update that does the same to both states but for the registers `g` keeps them alike. -/
theorem map {f : State → State} (h : Alike g s s') (hf : ∀ v, f (s.borrow g v) = (f s).borrow g (f (s.borrow g v))) :
    Alike g (f s) (f s') := by
  obtain ⟨v, rfl⟩ := h
  exact ⟨_, hf v⟩

theorem quiet (h : Alike g s s') : Alike g { s with rspValid := false } { s' with rspValid := false } :=
  h.map (f := fun s => { s with rspValid := false }) fun _ => by cases g <;> rfl

theorem withInbox (h : Alike g s s') (inputs : List Input) : Alike g { s with inbox := inputs } { s' with inbox := inputs } :=
  h.map (f := fun s => { s with inbox := inputs }) fun _ => by cases g <;> rfl

theorem withPlIn (h : Alike g s s') (pl : List Byte) : Alike g { s with plIn := pl } { s' with plIn := pl } :=
  h.map (f := fun s => { s with plIn := pl }) fun _ => by cases g <;> rfl

theorem stored (h : Alike g s s') (m : Memory) : Alike g { s with fb := m } { s' with fb := m } :=
  h.map (f := fun s => { s with fb := m }) fun _ => by cases g <;> rfl

theorem inSession (h : Alike g s s') (x : Session) : Alike g { s with st := x } { s' with st := x } :=
  h.map (f := fun s => { s with st := x }) fun _ => by cases g <;> rfl

theorem record (h : Alike g s s') (e : Event) : Alike g (s.record e) (s'.record e) := h.map fun _ => by cases g <;> rfl

theorem setLine (h : Alike g s s') (w : Line) (l : Level) : Alike g (s.setLine w l) (s'.setLine w l) :=
  h.map fun _ => by cases g <;> cases w <;> rfl

theorem dropAnswer (h : Alike g s s') : Alike g s.dropAnswer s'.dropAnswer :=
  h.map fun _ => by cases g <;> unfold State.dropAnswer State.borrow <;> dsimp only <;> split <;> rfl

theorem latch (h : Alike g s s') (i : Instr) : Alike g (s.latch i) (s'.latch i) := h.map fun _ => by cases g <;> rfl

theorem complete (h : Alike g s s') (r : ResultCode) (data : Byte) : Alike g (s.complete r data) (s'.complete r data) :=
  h.map fun _ => by cases g <;> rfl

theorem load (h : Alike g s s') (prog : List MicroOp) : Alike g (s.load prog) (s'.load prog) :=
  h.map fun _ => by cases g <;> cases prog <;> rfl

theorem advance (h : Alike g s s') (k : Nat) : Alike g (s.advance k) (s'.advance k) := by
  by_cases hk : k + 1 < s.uprog.length
  · rw [State.advance_more hk, State.advance_more (h.uprog ▸ hk)]
    exact h.map (f := fun s => { s with upc := .running (k + 1) }) fun _ => by cases g <;> rfl
  · rw [State.advance_last (Nat.not_lt.1 hk), State.advance_last (h.uprog ▸ Nat.not_lt.1 hk)]
    exact h.complete .ok 0

theorem enterFaulted (h : Alike g s s') : Alike g s.enterFaulted s'.enterFaulted := h.map fun _ => by cases g <;> rfl

theorem blockReset (h : Alike g s s') : Alike g s.blockReset s'.blockReset := h.map fun _ => by cases g <;> rfl

theorem runMicroOp (h : Alike g s s') (k : Nat) (op : MicroOp) : Alike g (s.runMicroOp k op) (s'.runMicroOp k op) := by
  cases op with
  | line w l => exact ((h.setLine w l).record _).advance k
  | wait d => exact (h.record _).advance k
  | state x => exact (h.inSession x).advance k
  | tx bytes =>
    simp only [State.runMicroOp, h.nextAnswer]
    split
    · exact (h.dropAnswer.record _).advance k
    · exact (h.dropAnswer.record _).enterFaulted

theorem whenIdle_next {u u' t : State} (h : Alike g s s') (hu : Alike g u u') (ht : whenIdle s u = .next t) :
    ∃ t', whenIdle s' u' = .next t' ∧ Alike g t t' := by
  obtain ⟨hidle, rfl⟩ := Machine.whenIdle_next ht
  exact ⟨u', whenIdle_idle u' (h.upc.trans hidle), hu⟩

theorem acceptReady_next {i : Instr} {prog : List MicroOp} {t : State} (h : Alike g s s')
    (ht : acceptReady i prog s = .next t) : ∃ t', acceptReady i prog s' = .next t' ∧ Alike g t t' := by
  by_cases hst : s.st = .ready
  · rw [acceptReady_ready i prog hst] at ht
    rw [acceptReady_ready i prog (h.st.trans hst)]
    exact h.whenIdle_next ((h.latch i).load prog) ht
  · rw [acceptReady_other i prog hst] at ht
    rw [acceptReady_other i prog (h.st ▸ hst)]
    exact h.whenIdle_next ((h.latch i).complete _ _) ht

theorem exec_next {i : Instr} {t : State} (h : Alike g s s') (ht : exec i s = .next t) :
    ∃ t', exec i s' = .next t' ∧ Alike g t t' := by
  cases hd : directiveOf i with
  | some d =>
    obtain rfl := eq_toInstr_of_directiveOf hd
    rw [exec_toInstr, issue] at ht ⊢
    rw [h.cfg]
    exact h.acceptReady_next ht
  | none =>
    cases i with
    | init =>
      simp only [exec, execInit, h.cfg] at ht ⊢
      exact h.whenIdle_next ((h.latch _).load _) ht
    | resetSeq =>
      simp only [exec, execResetSeq, h.cfg, h.st] at ht ⊢
      exact h.whenIdle_next ((h.latch _).load _) ht
    | writeCommand b =>
      simp only [exec, execWriteCommand, h.cfg] at ht ⊢
      exact h.acceptReady_next ht
    | writeData p =>
      cases p with
      | nil => exact h.whenIdle_next (h.complete _ _) ht
      | cons b rest =>
        simp only [exec, execWriteData, h.cfg] at ht ⊢
        exact h.acceptReady_next ht
    | update =>
      simp only [exec, execUpdate, h.cfg, h.fb] at ht ⊢
      exact h.acceptReady_next ht
    | setPixel x y on =>
      simp only [exec, execSetPixel, h.fb] at ht ⊢
      split at ht
      · exact h.whenIdle_next ((h.latch _).complete _ _) ht
      · exact h.whenIdle_next (((h.stored _).latch _).complete _ _) ht
    | clear =>
      simp only [exec, execClear, h.fb] at ht ⊢
      exact h.whenIdle_next (((h.stored _).latch _).complete _ _) ht
    | bulkReplace p =>
      simp only [exec, execBulkReplace, h.fb] at ht ⊢
      exact h.whenIdle_next (((h.stored _).latch _).complete _ _) ht
    | fbRead idx =>
      simp only [exec, execFbRead, h.fb] at ht ⊢
      exact h.whenIdle_next ((h.latch _).complete _ _) ht
    | displayOff | displayOn | setContrast | setMultiplexRatio | setAddressingMode | setSegmentRemap | setComScanDirection
    | setColumnWindow | setPageWindow | setPageStart | setColumnStartLow | setColumnStartHigh | other => cases hd

theorem step_word_next {w : Word} {inputs : List Input} {t : State} (h : Alike g s s') (hu : s.upc = .idle)
    (hi : s.inbox = .word w :: inputs) (ht : step s = .next t) : ∃ t', step s' = .next t' ∧ Alike g t t' := by
  have hu' := h.upc.trans hu
  have hi' := h.inbox.trans hi
  cases hd : decodeRequest w s.plIn with
  | ok r =>
    rw [step_request hu hi hd] at ht
    rw [step_request hu' hi' (h.plIn.symm ▸ hd)]
    exact ((h.withInbox inputs).withPlIn r.2).exec_next ht
  | error e =>
    rw [step_rejected hu hi hd] at ht
    rw [step_rejected hu' hi' (h.plIn.symm ▸ hd)]
    split at ht
    · cases ht
    · rename_i he
      obtain rfl := Host.Outcome.next.inj ht
      exact ⟨_, if_neg he, (h.withInbox inputs).complete _ _⟩

/-- Steps of states that are alike end alike. -/
theorem step_next {t : State} (h : Alike g s s') (ht : step s = .next t) : ∃ t', step s' = .next t' ∧ Alike g t t' := by
  cases Machine.step_next ht with
  | micro k op hk hop ht =>
    exact ⟨_, (step_busy (h.upc.trans hk)).trans (microStep_some (h.uprog ▸ hop)), ht ▸ h.quiet.runMicroOp k op⟩
  | waiting hu hi ht => exact ⟨_, step_waiting (h.upc.trans hu) (h.inbox.trans hi), ht ▸ h.quiet⟩
  | blockReset inputs hu hi ht =>
    exact ⟨_, step_blockReset (h.upc.trans hu) (h.inbox.trans hi), ht ▸ (h.withInbox inputs).blockReset⟩
  | illegal w inputs hu hi | request w inputs _ _ hu hi => exact h.step_word_next hu hi ht
  | directive bytes inputs i hu hi hd ht =>
    rw [step_directive (h.upc.trans hu) (h.inbox.trans hi) hd]
    exact (h.withInbox inputs).exec_next ht

end Alike

/-- Settles O59: states alike but for `res` step to states alike but for `res`. -/
theorem resultCodeInfluencesNothing : Obligations.ResultCodeInfluencesNothing := by
  intro s t r ht
  obtain ⟨_, hstep, v, rfl⟩ := Alike.step_next (g := .res) ⟨{ s with res := r }, rfl⟩ ht
  exact ⟨v.res, hstep⟩

/-- Settles O60: states alike but for the line registers step to states alike but for them. -/
theorem lineRegistersInfluenceNothing : Obligations.LineRegistersInfluenceNothing := by
  intro s t a b c ht
  obtain ⟨_, hstep, v, rfl⟩ := Alike.step_next (g := .lines) ⟨{ s with sel := a, mode := b, rst := c }, rfl⟩ ht
  exact ⟨v.sel, v.mode, v.rst, hstep⟩

end Sys2Proof.Machine
end

section
/-! SUPPORT. Proofs about single steps, the decoded request and the state after a block reset. -/

namespace Sys2Proof.Machine

/-! ### Single steps -/

/-- Settles O6: this is the rule `step_request`. -/
theorem stepRunsTheDecodedRequest : Obligations.StepRunsTheDecodedRequest :=
  fun _ _ _ _ _ hu hi hd => step_request hu hi hd

/-- The image of one request holds its word and its payload, and nothing more. -/
theorem decodeRequest_of_decode {w : Word} {payload : List Byte} {i : Instr} (h : decode (.request w payload) = .ok i) :
    decodeRequest w payload = .ok (i, []) := by
  simp only [decode] at h
  split at h <;> cases h
  assumption

/-- Settles O8: the image of a table word holds one instruction, and its payload is taken from the front of the stream. -/
theorem placedTableWordRunsNext : Obligations.PlacedTableWordRunsNext := by
  intro s nbits w i h
  unfold decodeTableWord at h
  unfold State.withFetchWord
  cases hi : tableImage nbits w with
  | none => simp [hi] at h
  | some image =>
    have hd : decode image = .ok i := by
      simp only [hi] at h
      split at h
      · rw [← Option.some.inj h]; assumption
      · cases h
    cases image with
    | request word payload =>
      have hr : decodeRequest word payload = .ok (i, []) := decodeRequest_of_decode hd
      exact step_request rfl rfl (decodeRequest_append s.plIn hr)
    | directive bytes => exact step_directive rfl rfl hd

/-- Settles O10: this is the rule `step_waiting`. -/
theorem idleBlockWaitsForAnInput : Obligations.IdleBlockWaitsForAnInput :=
  ⟨fun _ => ⟨rfl, rfl⟩, fun _ hu hi => step_waiting hu hi⟩

/-- Settles O12: these are the two branches of `State.advance`. -/
theorem advanceMovesOnOrCompletes : Obligations.AdvanceMovesOnOrCompletes :=
  fun _ _ => ⟨State.advance_more, State.advance_last⟩

/-- Settles O13: the step runs the `LINE`, whose effect on each line is its definition. -/
theorem lineMicroOpWritesItsRegister : Obligations.LineMicroOpWritesItsRegister := by
  intro s k l hu
  have hrun (w : Line) (h : s.uprog[k]? = some (.line w l)) :
      step s = .next (State.runMicroOp k (.line w l) { s with rspValid := false }) :=
    (step_busy hu).trans (microStep_some h)
  exact ⟨hrun .select, hrun .mode, hrun .reset⟩

theorem acceptReady_busy {s : State} {k : Nat} (i : Instr) (prog : List MicroOp) (hu : s.upc = .running k) :
    acceptReady i prog s = .refused .busy := by
  unfold acceptReady
  split <;> exact whenIdle_at _ hu

/-- Settles O18: every meaning goes through `whenIdle`. -/
theorem noInstructionIsAcceptedWhileBusy : Obligations.NoInstructionIsAcceptedWhileBusy := by
  intro i s k hu
  cases hd : directiveOf i with
  | some d =>
    obtain rfl := eq_toInstr_of_directiveOf hd
    rw [exec_toInstr]
    exact acceptReady_busy _ _ hu
  | none =>
    cases i with
    | init | resetSeq | clear | bulkReplace | fbRead => exact whenIdle_at _ hu
    | writeCommand | update => exact acceptReady_busy _ _ hu
    | writeData p =>
      cases p with
      | nil => exact whenIdle_at _ hu
      | cons => exact acceptReady_busy _ _ hu
    | setPixel =>
      simp only [exec, execSetPixel]
      split <;> exact whenIdle_at _ hu
    | displayOff | displayOn | setContrast | setMultiplexRatio | setAddressingMode | setSegmentRemap | setComScanDirection
    | setColumnWindow | setPageWindow | setPageStart | setColumnStartLow | setColumnStartHigh | other => cases hd

/-! ### A payload that does not come -/

theorem opField_append (hi n : BitVec 16) : opField (hi ++ n) = hi.extractLsb' 12 4 := by
  rw [opField, BitVec.extractLsb'_append_eq_of_le (by omega)]

theorem lenField_append (hi n : BitVec 16) : lenField (hi ++ n) = n := by
  rw [lenField, BitVec.extractLsb'_append_eq_right]

theorem selectRow_writeData (n : BitVec 16) : selectRow (0x4000#16 ++ n) = some .writeData := by
  have hres : reservedZero (0x4000#16 ++ n) 16 = true := by
    rw [reservedZero, BitVec.extractLsb'_append_eq_of_le (by omega)]
    decide
  have hop : (opField (0x4000#16 ++ n)).toNat = 4 := by rw [opField_append]; decide
  simp [selectRow, hop, hres]

theorem decodeRequest_short {w : Word} {r : RequestRow} {pl : List Byte} (hr : selectRow w = some r)
    (hz : ¬ (r = .writeData ∧ lenField w = 0)) (hlen : pl.length < payloadLength r w) :
    decodeRequest w pl = .error .payloadShort := by
  simp only [decodeRequest, hr, if_neg hz, if_pos hlen]

/-- Settles O11: both words select their row, and the announced payload is longer than the stream. -/
theorem missingPayloadStopsTheBlock : Obligations.MissingPayloadStopsTheBlock := by
  intro s w inputs hu hi hshort
  have hd : decodeRequest w s.plIn = .error .payloadShort := by
    obtain ⟨n, rfl, hn⟩ | ⟨rfl, hn⟩ := hshort
    · have hlen : s.plIn.length < payloadLength .writeData (0x4000#16 ++ n) := by rwa [payloadLength, lenField_append]
      refine decodeRequest_short (selectRow_writeData n) ?_ hlen
      rintro ⟨-, hzero⟩
      simp [payloadLength, hzero] at hlen
    · exact decodeRequest_short (r := .bulkReplace) (by decide) (by decide) hn
  rw [step_rejected hu hi hd, if_pos rfl]

/-! ### The bytes of a bus write -/

/-- Settles O36, by the recursion of `beats`. -/
theorem transportBeatsMarkTheLastByte : Obligations.TransportBeatsMarkTheLastByte := by
  intro bytes
  induction bytes using beats.induct with
  | case1 => exact ⟨rfl, fun _ h => by simp at h⟩
  | case2 b => exact ⟨rfl, fun k h => by
    obtain rfl : k = 0 := by simpa using h
    rfl⟩
  | case3 b c rest ih =>
    obtain ⟨hbytes, hlast⟩ := ih
    refine ⟨by simp [beats, hbytes], fun k h => ?_⟩
    cases k with
    | zero => simp [beats]
    | succ k => simpa [beats] using hlast k (by simpa using h)

/-! ### The state after a block reset -/

/-- Settles O46: each is a field of `State.resetWith`. -/
theorem resetValues : Obligations.ResetValues := fun _ => ⟨rfl, rfl, rfl, rfl, rfl, rfl, rfl⟩

/-- Settles O47: each output is computed from the reset state, in which no micro-op is current. -/
theorem resetOutputs : Obligations.ResetOutputs := fun _ => ⟨rfl, rfl, rfl, rfl, rfl, rfl, rfl, rfl, rfl, rfl⟩

/-- Settles O48: the step is `State.blockReset`, whose fields these are. -/
theorem blockResetRestoresTheRegisters : Obligations.BlockResetRestoresTheRegisters :=
  fun _ _ hu hi => ⟨_, step_blockReset hu hi, rfl, rfl, rfl, rfl, rfl, rfl, rfl, rfl, rfl, rfl, rfl, freshMemory_wf _⟩

theorem resetWith_idleInv (p : Params) : IdleInv (State.resetWith p) :=
  ⟨rfl, rfl, rfl, rfl, .nil⟩

theorem default_wf : Config.default.wf = true := by
  have hinit : initSeqOk Config.initSeqDefault = true := by decide
  simp [Params.wf, Config.default, hinit, windowSeqOk, Config.windowSeqDefault, maxChunkOk]

/-- Settles O50: the lines are deasserted, the trace is empty, and nothing waits or runs. -/
theorem resetMeetsTheInvariants : Obligations.ResetMeetsTheInvariants :=
  ⟨fun p => ⟨freshMemory_wf 0, resetWith_idleInv p, nofun, nofun⟩, default_wf⟩

end Sys2Proof.Machine
end

section
/-! SUPPORT. Proofs about the framebuffer's addresses and who writes it (spec/20_memory.md): the pixel translator, the bounds
check, and the steps that leave FB alone. -/

namespace Sys2Proof.Machine

/-! ### The pixel translator (R66 to R68) -/

theorem pixelBit_lt (y : Nat) : pixelBit y < 8 := Nat.mod_lt y (by decide)

/-- A page and a column below their bounds give an index of the framebuffer. -/
theorem pixelIdx_lt {x y : Nat} (hx : x < WIDTH) (hy : y < HEIGHT) : pixelIdx x y < FB_SIZE := by
  simp only [pixelIdx, WIDTH, HEIGHT, PAGE_ROWS, FB_SIZE] at *
  omega

/-- The index is page after column as bits: the column fills the low seven bits, so no carry crosses. -/
theorem toNat_page_append_column {x y : Byte} (hx : x.toNat < WIDTH) (hy : y.toNat < HEIGHT) :
    (y.extractLsb' 3 3 ++ x.extractLsb' 0 7).toNat = pixelIdx x.toNat y.toNat := by
  have hpage : (y.extractLsb' 3 3).toNat = y.toNat / PAGE_ROWS := by
    simp only [BitVec.extractLsb'_toNat, Nat.shiftRight_eq_div_pow, HEIGHT, PAGE_ROWS] at *
    omega
  have hcolumn : (x.extractLsb' 0 7).toNat = x.toNat := by
    simpa using hx
  rw [BitVec.toNat_append, ← Nat.shiftLeft_add_eq_or_of_lt (x.extractLsb' 0 7).isLt, Nat.shiftLeft_eq, hpage, hcolumn]
  rfl

theorem toNat_row_of_page (y : Byte) : (y.extractLsb' 0 3).toNat = pixelBit y.toNat := by
  simp [pixelBit]

/-- The mask is the power of two of the bit position. -/
theorem getLsbD_pixelMask (y b : Nat) : (pixelMask y).getLsbD b = decide (b = pixelBit y) := by
  have hmask : pixelMask y = BitVec.twoPow 8 (pixelBit y) := rfl
  simp [hmask, BitVec.getLsbD_twoPow, pixelBit_lt y, eq_comm]

/-- Settles O19, by the value of each slice of the coordinates. -/
theorem translatorIsPureWiring : Obligations.TranslatorIsPureWiring := fun _ y hx hy =>
  ⟨rfl, rfl, (toNat_page_append_column hx hy).symm, pixelIdx_lt hx hy, (toNat_row_of_page y).symm, getLsbD_pixelMask y.toNat⟩

theorem pageOf_pixelIdx {x : Nat} (y : Nat) (hx : x < WIDTH) : pageOf (pixelIdx x y) = y / PAGE_ROWS := by
  simp only [pageOf, pixelIdx, WIDTH] at *
  omega

theorem columnOf_pixelIdx {x : Nat} (y : Nat) (hx : x < WIDTH) : columnOf (pixelIdx x y) = x := by
  simp only [columnOf, pixelIdx, WIDTH] at *
  omega

theorem pixelY_lt {i b : Nat} (hi : i < FB_SIZE) (hb : b < 8) : pixelY i b < HEIGHT := by
  simp only [pixelY, FB_SIZE, WIDTH, HEIGHT, PAGE_ROWS] at *
  omega

theorem pixelIdx_pixelX_pixelY (i : Nat) {b : Nat} (hb : b < 8) : pixelIdx (pixelX i) (pixelY i b) = i := by
  simp only [pixelIdx, pixelX, pixelY, WIDTH, PAGE_ROWS]
  omega

theorem pixelBit_pixelY (i : Nat) {b : Nat} (hb : b < 8) : pixelBit (pixelY i b) = b := by
  simp only [pixelBit, pixelY, PAGE_ROWS]
  omega

theorem pixelY_pixelIdx {x : Nat} (y : Nat) (hx : x < WIDTH) : pixelY (pixelIdx x y) (pixelBit y) = y := by
  have hpage : pixelIdx x y / WIDTH = y / PAGE_ROWS := pageOf_pixelIdx y hx
  rw [pixelY, hpage]
  exact Nat.div_add_mod y PAGE_ROWS

/-- Settles O20: the two maps undo each other, and each stays in the other's domain. -/
theorem translatorIsABijection : Obligations.TranslatorIsABijection :=
  ⟨fun i _ hi hb =>
    ⟨Nat.mod_lt i (by decide), pixelY_lt hi hb, pixelIdx_pixelX_pixelY i hb, pixelBit_pixelY i hb⟩,
   fun _ y hx _ =>
    ⟨columnOf_pixelIdx y hx, pixelY_pixelIdx y hx, pageOf_pixelIdx y hx, columnOf_pixelIdx y hx⟩⟩

/-! ### The bounds check (R70) -/

theorem inBounds_iff (x y : Int) : inBounds x y = true ↔ 0 ≤ x ∧ x < 128 ∧ 0 ≤ y ∧ y < 64 := by
  simp [inBounds, inRange_iff, WIDTH, HEIGHT, and_assoc]

/-- The pixel operand exists exactly in bounds. -/
theorem isSome_pixelOperand (x y : Int) : (pixelOperand x y).isSome = inBounds x y := by
  unfold pixelOperand
  split <;> simp_all

/-- `SET_PIXEL` stores exactly when there is a pixel operand. -/
theorem isSome_setPixelIn (m : Memory) (x y : Int) (on : Bool) : (setPixelIn m x y on).isSome = (pixelOperand x y).isSome := by
  unfold setPixelIn
  cases pixelOperand x y <;> rfl

/-- Settles O21: the store is guarded by the bounds check alone. -/
theorem boundsCheckOverAllIntegers : Obligations.BoundsCheckOverAllIntegers := by
  intro m x y on
  rw [isSome_setPixelIn, isSome_pixelOperand, inBounds_iff]

/-! ### Who writes FB (R71, R84) -/

/-- An acceptance leaves FB alone unless the instruction is one of the three mutators. -/
theorem Accepted.mutator_of_fb_ne {i : Instr} {s t : State} (h : Accepted i s t) (hne : t.fb ≠ s.fb) :
    (∃ x y on, i = .setPixel x y on) ∨ i = .clear ∨ ∃ p, i = .bulkReplace p := by
  cases h with
  | stored m hinit hwf hmut => exact hmut
  | done | loaded | illegal => subst t; simp at hne

/-- No directive is a mutator. -/
theorem directiveOf_mutator {i : Instr} (h : (∃ x y on, i = .setPixel x y on) ∨ i = .clear ∨ ∃ p, i = .bulkReplace p) :
    directiveOf i = none := by
  obtain ⟨x, y, on, rfl⟩ | rfl | ⟨p, rfl⟩ := h <;> rfl

/-- Settles O28, by what the block does in the step: a micro-op, a wait and the answer to an illegal word leave FB alone, and an
accepted instruction that changes it is a mutator, so no directive. -/
theorem onlyMutatorsWriteTheFramebuffer : Obligations.OnlyMutatorsWriteTheFramebuffer := by
  intro s t h hne
  cases step_next h with
  | micro k op hk => exact absurd (step_busy_frame hk h).fb hne
  | waiting _ _ ht => exact absurd (congrArg State.fb ht) hne
  | illegal w inputs _ _ ht => exact absurd (congrArg State.fb ht) hne
  | blockReset inputs hu hi => exact ⟨hu, .inl (by rw [hi]; rfl)⟩
  | request w inputs i rest hu hi hd ht =>
    obtain ⟨-, haccepted⟩ := exec_next ht
    exact ⟨hu, .inr ⟨w, i, rest, by rw [hi]; rfl, hd, haccepted.mutator_of_fb_ne hne⟩⟩
  | directive bytes inputs i _ _ hd ht =>
    obtain ⟨-, haccepted⟩ := exec_next ht
    obtain ⟨d, hdirective⟩ := decodeDirective_directive hd
    simp [directiveOf_mutator (haccepted.mutator_of_fb_ne hne)] at hdirective

end Sys2Proof.Machine
end

section
/-! SUPPORT. Proofs about the encodings (spec/30_encoding.md): the rows of the request table, the two round trips of the decoder,
the bytes of the default codec, and the illegal request. -/

namespace Sys2Proof.Machine

/-! ### Bit fields -/

theorem append_inj {m n : Nat} {a c : BitVec m} {b d : BitVec n} (h : a ++ b = c ++ d) : a = c ∧ b = d := by
  have hhi := congrArg (BitVec.extractLsb' n m) h
  have hlo := congrArg (BitVec.extractLsb' 0 n) h
  rw [BitVec.extractLsb'_append_eq_left, BitVec.extractLsb'_append_eq_left] at hhi
  rw [BitVec.extractLsb'_append_eq_right, BitVec.extractLsb'_append_eq_right] at hlo
  exact ⟨hhi, hlo⟩

theorem append_of_extract {m n : Nat} {w : BitVec (m + n)} {hi : BitVec m} (h : w.extractLsb' n m = hi) :
    hi ++ w.extractLsb' 0 n = w := by
  rw [← h, BitVec.extractLsb'_append_extractLsb']

theorem ofBool_getLsbD {n : Nat} (w : BitVec n) (i : Nat) : BitVec.ofBool (w.getLsbD i) = w.extractLsb' i 1 := by
  ext j hj
  obtain rfl : j = 0 := by omega
  simp

theorem append_eq_or {m n : Nat} (a : BitVec m) (b : BitVec n) :
    a ++ b = a.setWidth (m + n) <<< n ||| b.setWidth (m + n) := by
  rw [← BitVec.setWidth_append_eq_shiftLeft_setWidth_or, BitVec.setWidth_eq]

/-! ### The rows of the request table -/

/-- The opcode of a row (spec/30_encoding.md R102). -/
def rowOpcode : RequestRow → BitVec 4
  | .init => 1
  | .resetSeq => 2
  | .writeCommand => 3
  | .writeData => 4
  | .update => 5
  | .setPixel => 8
  | .clear => 9
  | .bulkReplace => 10
  | .fbRead => 11

/-- The number of operand bits of a row, the low bits of its words; the bits between them and the opcode are reserved (R101). -/
def operandBits : RequestRow → Nat
  | .init | .resetSeq | .update | .clear | .bulkReplace => 0
  | .writeCommand => 8
  | .writeData => 16
  | .setPixel => 17
  | .fbRead => 10

theorem operandBits_le (r : RequestRow) : operandBits r ≤ 28 := by cases r <;> decide

theorem mask_eq (r : RequestRow) : r.mask = BitVec.allOnes 32 <<< operandBits r := by cases r <;> rfl

theorem pattern_eq (r : RequestRow) : r.pattern = (rowOpcode r).setWidth 32 <<< 28 := by cases r <;> rfl

theorem selectRow_eq_some_iff {w : Word} {r : RequestRow} :
    selectRow w = some r ↔ opField w = rowOpcode r ∧ reservedZero w (operandBits r) = true := by
  constructor
  · intro h
    unfold selectRow at h
    split at h
    case h_10 => cases h
    all_goals
      rename_i hop
      split at h <;> cases h
      exact ⟨BitVec.eq_of_toNat_eq hop, by assumption⟩
  · rintro ⟨hop, hres⟩
    cases r <;> simpa [selectRow, hop, rowOpcode, operandBits] using hres

/-- A mask of the bits from `lo` up compares the opcode and the reserved bits: each bit of the word is masked out, or reserved, or
the opcode's. -/
theorem and_mask_eq_iff {w : Word} {op : BitVec 4} {lo : Nat} (hlo : lo ≤ 28) :
    w &&& (BitVec.allOnes 32 <<< lo) = op.setWidth 32 <<< 28 ↔ opField w = op ∧ reservedZero w lo = true := by
  simp only [opField, reservedZero, beq_iff_eq]
  have hbit : w &&& (BitVec.allOnes 32 <<< lo) = op.setWidth 32 <<< 28 ↔
      ∀ i < 32, (w.getLsbD i && decide (lo ≤ i)) = (decide (28 ≤ i) && op.getLsbD (i - 28)) := by
    rw [BitVec.eq_of_getLsbD_eq_iff]
    refine forall₂_congr fun i hi => ?_
    rw [BitVec.getLsbD_and, BitVec.getLsbD_shiftLeft, BitVec.getLsbD_allOnes, BitVec.getLsbD_shiftLeft, BitVec.getLsbD_setWidth]
    grind
  rw [hbit]
  constructor
  · intro h
    constructor <;> ext i hi
    · have hi28 := h (28 + i) (by omega)
      grind
    · have hilo := h (lo + i) (by omega)
      grind
  · rintro ⟨rfl, hres⟩ i hi
    have hzero := congrArg (·.getLsbD (i - lo)) hres
    grind

/-- Settles O2: opcode and reserved bits are what the mask compares. -/
theorem rowSelectionFollowsMatchAndMask : Obligations.RowSelectionFollowsMatchAndMask := by
  intro w r
  rw [selectRow_eq_some_iff, mask_eq, pattern_eq, and_mask_eq_iff (operandBits_le r)]

theorem selectRow_eq_none {w : Word} (h : ∀ r : RequestRow, w &&& r.mask ≠ r.pattern) : selectRow w = none :=
  Option.eq_none_iff_forall_ne_some.2 fun r hr => h r ((rowSelectionFollowsMatchAndMask w r).1 hr)

/-! ### Request words by row and operand -/

/-- The word of a row with the operand bits `x` (spec/30_encoding.md R101). -/
def requestWord (r : RequestRow) (x : BitVec (operandBits r)) : Word :=
  (rowOpcode r ++ 0#(28 - operandBits r) ++ x).cast (by have := operandBits_le r; omega)

/-- The words of a row are told by their operand. -/
theorem eq_requestWord_iff {w : Word} {r : RequestRow} {x : BitVec (operandBits r)} :
    w = requestWord r x ↔ selectRow w = some r ∧ w.extractLsb' 0 (operandBits r) = x := by
  have hle := operandBits_le r
  simp only [selectRow_eq_some_iff, requestWord, opField, reservedZero, beq_iff_eq]
  constructor
  · rintro rfl
    refine ⟨⟨?_, ?_⟩, ?_⟩ <;> ext i hi <;> grind
  · rintro ⟨⟨hop, hres⟩, rfl⟩
    ext i hi
    have hzero := congrArg (·.getLsbD (i - operandBits r)) hres
    grind

theorem selectRow_requestWord (r : RequestRow) (x : BitVec (operandBits r)) : selectRow (requestWord r x) = some r :=
  (eq_requestWord_iff.1 rfl).1

theorem operand_requestWord (r : RequestRow) (x : BitVec (operandBits r)) :
    (requestWord r x).extractLsb' 0 (operandBits r) = x :=
  (eq_requestWord_iff.1 rfl).2

/-- The operand of a `SET_PIXEL` word: `on`, `y` and `x` (R103). -/
def pixelBits (x y : Byte) (on : Bool) : BitVec (operandBits .setPixel) := BitVec.ofBool on ++ y ++ x

theorem pixelBits_fields (w : Word) : pixelBits (xField w) (yField w) (onField w) = w.extractLsb' 0 17 := by
  have hyx : w.extractLsb' 16 1 ++ yField w = w.extractLsb' 8 9 := BitVec.extractLsb'_append_extractLsb'_eq_extractLsb' rfl
  have hall : w.extractLsb' 8 9 ++ xField w = w.extractLsb' 0 17 := BitVec.extractLsb'_append_extractLsb'_eq_extractLsb' rfl
  rw [pixelBits, onField, ofBool_getLsbD, hyx, hall]

theorem fields_pixelWord (x y : Byte) (on : Bool) :
    xField (requestWord .setPixel (pixelBits x y on)) = x ∧ yField (requestWord .setPixel (pixelBits x y on)) = y ∧
      onField (requestWord .setPixel (pixelBits x y on)) = on := by
  have h := (pixelBits_fields _).trans (operand_requestWord .setPixel (pixelBits x y on))
  obtain ⟨h, hx⟩ := append_inj h
  obtain ⟨hon, hy⟩ := append_inj h
  exact ⟨hx, hy, by simpa using congrArg (·.getLsbD 0) hon⟩

theorem encode_setPixel (x y : Byte) (on : Bool) :
    encode (.setPixel x y on) = .request (requestWord .setPixel (pixelBits x y on)) [] := by
  have h : 0x8#4 ++ 0#11 ++ BitVec.ofBool on ++ y ++ x = 0x8#4 ++ 0#11 ++ (BitVec.ofBool on ++ y ++ x) := by
    rw [BitVec.append_assoc', BitVec.append_assoc']
    rfl
  exact congrArg (Image.request · []) h

/-! ### Decode after encode -/

/-- A word of a row, with the payload it announces, is the image of what the row assembles. -/
theorem decode_request {w : Word} {r : RequestRow} {payload : List Byte} (hr : selectRow w = some r)
    (hz : ¬ (r = .writeData ∧ lenField w = 0)) (hlen : payload.length = payloadLength r w) :
    decode (.request w payload) = .ok (assemble r w payload) := by
  simp only [decode, decodeRequest, hr, if_neg hz, ← hlen, Nat.lt_irrefl, if_false, List.take_length, List.drop_length]

theorem toList_wholeBuffer {l : List Byte} (h : l.length = FB_SIZE) : (wholeBuffer l).toList = l := by
  simp [wholeBuffer, show l.length = 1024 from h, Vector.toList]

theorem wholeBuffer_toList (v : Vector Byte 1024) : wholeBuffer v.toList = v :=
  Vector.toList_inj.1 (toList_wholeBuffer Vector.length_toList)

/-- Settles O3: the word of each request selects its row, and its fields are the operands. -/
theorem requestsDecodeToThemselves : Obligations.RequestsDecodeToThemselves := by
  intro i hhost hwf
  cases i with
  | init | resetSeq | update | clear => rfl
  | writeCommand byte =>
    have hbyte : byteField (requestWord .writeCommand byte) = byte := operand_requestWord .writeCommand byte
    refine (decode_request (selectRow_requestWord .writeCommand byte) nofun rfl).trans ?_
    rw [assemble, hbyte]
  | writeData payload =>
    obtain ⟨hpos, hmax⟩ : 1 ≤ payload.length ∧ payload.length ≤ 65535 := by simpa [Instr.wf] using hwf
    set n := BitVec.ofNat 16 payload.length
    have hn : n.toNat = payload.length := Nat.mod_eq_of_lt (by omega)
    have hlen : lenField (requestWord .writeData n) = n := operand_requestWord .writeData n
    refine decode_request (selectRow_requestWord .writeData n) ?_ ?_
    · rw [hlen]
      rintro ⟨-, hzero⟩
      rw [hzero] at hn
      exact absurd hn.symm (Nat.ne_of_gt hpos)
    · rw [payloadLength, hlen, hn]
  | setPixel x y on =>
    obtain ⟨hx, hy, hon⟩ := fields_pixelWord x y on
    rw [encode_setPixel, decode_request (selectRow_requestWord .setPixel _) nofun rfl, assemble, hx, hy, hon]
  | bulkReplace payload =>
    exact (decode_request (r := .bulkReplace) (by decide) nofun Vector.length_toList).trans
      (congrArg (fun v => Except.ok (Instr.bulkReplace v)) (wholeBuffer_toList payload))
  | fbRead idx =>
    have hidx : idxField (requestWord .fbRead idx) = idx := operand_requestWord .fbRead idx
    refine (decode_request (selectRow_requestWord .fbRead idx) nofun rfl).trans ?_
    rw [assemble, hidx]
  | displayOff | displayOn | setContrast | setMultiplexRatio | setAddressingMode | setSegmentRemap | setComScanDirection
  | setColumnWindow | setPageWindow | setPageStart | setColumnStartLow | setColumnStartHigh | other => cases hhost

/-! ### Encode after decode -/

theorem requestWord_operand {w : Word} {r : RequestRow} (hr : selectRow w = some r) :
    requestWord r (w.extractLsb' 0 (operandBits r)) = w :=
  (eq_requestWord_iff.2 ⟨hr, rfl⟩).symm

theorem eq_pattern {w : Word} {r : RequestRow} (h : operandBits r = 0) (hr : selectRow w = some r) : w = r.pattern := by
  have hw := (rowSelectionFollowsMatchAndMask w r).1 hr
  rwa [mask_eq, h, BitVec.shiftLeft_zero, BitVec.and_allOnes] at hw

theorem encode_assemble {w : Word} {r : RequestRow} {payload : List Byte} (hr : selectRow w = some r)
    (hlen : payload.length = payloadLength r w) : encode (assemble r w payload) = .request w payload := by
  have hw := requestWord_operand hr
  have hnil (h : payloadLength r w = 0) : payload = [] := List.eq_nil_of_length_eq_zero (hlen.trans h)
  cases r with
  | init | resetSeq | update | clear =>
    rw [hnil rfl, eq_pattern rfl hr]
    rfl
  | writeCommand | fbRead =>
    rw [hnil rfl]
    exact congrArg (Image.request · []) hw
  | setPixel =>
    rw [hnil rfl, assemble, encode_setPixel, pixelBits_fields]
    exact congrArg (Image.request · []) hw
  | writeData =>
    have hn : BitVec.ofNat 16 payload.length = lenField w := by rw [hlen, payloadLength, BitVec.ofNat_toNat, BitVec.setWidth_eq]
    rw [assemble, encode, hn]
    exact congrArg (Image.request · payload) hw
  | bulkReplace =>
    rw [assemble, encode, toList_wholeBuffer hlen, eq_pattern rfl hr]
    rfl

theorem assemble_wf {w : Word} {r : RequestRow} {payload : List Byte} (hz : ¬ (r = .writeData ∧ lenField w = 0))
    (hlen : payload.length = payloadLength r w) : (assemble r w payload).wf = true := by
  cases r with
  | writeData =>
    have hpos : (lenField w).toNat ≠ 0 := fun h => hz ⟨rfl, BitVec.eq_of_toNat_eq h⟩
    have hmax := (lenField w).isLt
    rw [payloadLength] at hlen
    simp only [assemble, Instr.wf, Bool.and_eq_true, decide_eq_true_eq]
    omega
  | init | resetSeq | writeCommand | update | setPixel | clear | bulkReplace | fbRead => rfl

theorem lastFrom_val {n : Nat} {s e : BitVec n} {last : LastFrom s} (h : lastFrom s e = some last) : last.val = e := by
  unfold lastFrom at h
  split at h <;> cases h
  rfl

theorem code_of_addressingModeOf {b : BitVec 2} {a : AddressingMode} (h : addressingModeOf b = some a) : a.code = b := by
  unfold addressingModeOf at h
  split_ifs at h with hb hb hb <;> cases h <;> rw [hb] <;> rfl

theorem encode_decodeDirective1 (c : Byte) : encode (decodeDirective1 c) = .directive [c] := by
  unfold decodeDirective1
  split
  · next h => rw [h]; rfl
  split
  · next h => rw [h]; rfl
  split
  · next h =>
    have hc := append_of_extract (m := 7) (n := 1) h
    rw [← ofBool_getLsbD] at hc
    exact congrArg (Image.directive [·]) hc
  split
  · next h =>
    obtain ⟨hhi, hlo⟩ := h
    have hmid : 0b1100#4 ++ BitVec.ofBool (c.getLsbD 3) = c.extractLsb' 3 5 := by
      rw [← hhi, ofBool_getLsbD]
      exact BitVec.extractLsb'_append_extractLsb'_eq_extractLsb' rfl
    have hc := append_of_extract (m := 5) (n := 3) hmid.symm
    rw [hlo] at hc
    exact congrArg (Image.directive [·]) hc
  split
  · next h => exact congrArg (Image.directive [·]) (append_of_extract (m := 5) (n := 3) h)
  split
  · next h => exact congrArg (Image.directive [·]) (append_of_extract (m := 4) (n := 4) h)
  split
  · next h => exact congrArg (Image.directive [·]) (append_of_extract (m := 4) (n := 4) h)
  · rfl

theorem encode_decodeDirective2 (c p : Byte) : encode (decodeDirective2 c p) = .directive [c, p] := by
  unfold decodeDirective2
  split
  · next h => rw [h]; rfl
  split
  · next h =>
    obtain ⟨rfl, hp⟩ := h
    exact congrArg (Image.directive [_, ·]) (append_of_extract (m := 2) (n := 6) hp)
  split
  · next h =>
    obtain ⟨rfl, hp⟩ := h
    split
    · next a ha =>
      have hcode := code_of_addressingModeOf ha
      exact congrArg (Image.directive [_, ·]) (hcode ▸ append_of_extract (m := 6) (n := 2) hp)
    · rfl
  · rfl

theorem encode_decodeDirective3 (c p q : Byte) : encode (decodeDirective3 c p q) = .directive [c, p, q] := by
  unfold decodeDirective3
  split
  · next h =>
    obtain ⟨rfl, hp, hq⟩ := h
    split
    · next last hlast =>
      have hval := lastFrom_val hlast
      exact congrArg₂ (fun a b => Image.directive [0x21, a, b]) (append_of_extract (m := 1) (n := 7) hp)
        (hval ▸ append_of_extract (m := 1) (n := 7) hq)
    · rfl
  split
  · next h =>
    obtain ⟨rfl, hp, hq⟩ := h
    split
    · next last hlast =>
      have hval := lastFrom_val hlast
      exact congrArg₂ (fun a b => Image.directive [0x22, a, b]) (append_of_extract (m := 5) (n := 3) hp)
        (hval ▸ append_of_extract (m := 5) (n := 3) hq)
    · rfl
  · rfl

theorem wf_of_directiveOf {i : Instr} {d : Directive} (h : directiveOf i = some d) : i.wf = true := by
  obtain rfl := eq_toInstr_of_directiveOf h
  cases d <;> rfl

theorem encode_of_decodeDirective {bytes : List Byte} {i : Instr} (h : decodeDirective bytes = .ok i) :
    encode i = .directive bytes := by
  unfold decodeDirective at h
  split at h <;> cases h
  · exact encode_decodeDirective1 _
  · exact encode_decodeDirective2 _ _
  · exact encode_decodeDirective3 _ _ _

/-- Settles O5: a request word is that of its row and operand, a directive's bytes are the fields they were cut into. -/
theorem decodedImagesEncodeBack : Obligations.DecodedImagesEncodeBack := by
  intro image i h
  cases image with
  | request w payload =>
    obtain ⟨r, hr, hz, hle, rfl, hrest⟩ := decodeRequest_ok (decodeRequest_of_decode h)
    have hlen : payload.length = payloadLength r w := Nat.le_antisymm (List.drop_eq_nil_iff.1 hrest.symm) hle
    rw [← hlen, List.take_length]
    exact ⟨encode_assemble hr hlen, assemble_wf hz hlen⟩
  | directive bytes =>
    obtain ⟨d, hd⟩ := decodeDirective_directive h
    exact ⟨encode_of_decodeDirective h, wf_of_directiveOf hd⟩

/-! ### The directives -/

theorem decodeDirective2_multiplexRatio (m : BitVec 6) : decodeDirective2 0xA8 (0#2 ++ m) = .setMultiplexRatio m := by
  have hhi : (0#2 ++ m).extractLsb' 6 2 = 0 := BitVec.extractLsb'_append_eq_left
  have hlo : (0#2 ++ m).extractLsb' 0 6 = m := BitVec.extractLsb'_append_eq_right
  rw [decodeDirective2, if_neg (by decide), if_pos ⟨rfl, hhi⟩, hlo]

theorem lastFrom_self {n : Nat} {s : BitVec n} (e : LastFrom s) : lastFrom s e.val = some e := dif_pos e.property

theorem decodeDirective3_columnWindow {p q : Byte} {s : BitVec 7} {e : LastFrom s} (hp : p.extractLsb' 7 1 = 0)
    (hq : q.extractLsb' 7 1 = 0) (hs : p.extractLsb' 0 7 = s) (he : q.extractLsb' 0 7 = e.val) :
    decodeDirective3 0x21 p q = .setColumnWindow s e := by
  subst hs
  rw [decodeDirective3, if_pos ⟨rfl, hp, hq⟩, he, lastFrom_self]

theorem decodeDirective3_pageWindow {p q : Byte} {s : BitVec 3} {e : LastFrom s} (hp : p.extractLsb' 3 5 = 0)
    (hq : q.extractLsb' 3 5 = 0) (hs : p.extractLsb' 0 3 = s) (he : q.extractLsb' 0 3 = e.val) :
    decodeDirective3 0x22 p q = .setPageWindow s e := by
  subst hs
  rw [decodeDirective3, if_neg (by simp), if_pos ⟨rfl, hp, hq⟩, he, lastFrom_self]

/-- Settles O4: the fixed bits of each encoding lead the decoder to its directive, and the rest are the parameter. -/
theorem directivesDecodeToThemselves : Obligations.DirectivesDecodeToThemselves := by
  intro d hd
  cases d with
  | displayOff | displayOn | setContrast => rfl
  | setAddressingMode a => cases a <;> rfl
  | setSegmentRemap r | setComScanDirection r => cases r <;> rfl
  | setMultiplexRatio m => exact congrArg Except.ok (decodeDirective2_multiplexRatio m)
  | setColumnWindow s e =>
    exact congrArg Except.ok (decodeDirective3_columnWindow BitVec.extractLsb'_append_eq_left
      BitVec.extractLsb'_append_eq_left BitVec.extractLsb'_append_eq_right BitVec.extractLsb'_append_eq_right)
  | setPageWindow s e =>
    exact congrArg Except.ok (decodeDirective3_pageWindow BitVec.extractLsb'_append_eq_left
      BitVec.extractLsb'_append_eq_left BitVec.extractLsb'_append_eq_right BitVec.extractLsb'_append_eq_right)
  | setPageStart p => clear hd; revert p; decide
  | setColumnStartLow n | setColumnStartHigh n => clear hd; revert n; decide
  | other c ps => exact absurd rfl (hd c ps)

/-! ### The default codec -/

theorem codec_default {p : Params} (h : p.codecTable = []) (d : Directive) : codec p d = directiveBytes d := by
  cases d <;> simp [codec, h, codecEntry, directiveBytes]

theorem zero_append {m n : Nat} (x : BitVec n) : 0#m ++ x = x.setWidth (m + n) := by
  rw [append_eq_or, BitVec.setWidth_zero, BitVec.zero_shiftLeft, BitVec.zero_or]

/-- Settles O34: a field beside fixed bits is that field put to the bits that stand before it. -/
theorem defaultCodecBytes : Obligations.DefaultCodecBytes := by
  intro p h
  simp only [codec_default h, directiveBytes]
  refine ⟨trivial, trivial, fun _ => trivial, fun m => ?_, rfl, rfl, rfl, fun r => ?_, fun r => ?_, fun b e => ?_,
    fun b e => ?_, fun q => ?_, fun n => ?_, fun n => ?_, fun _ _ => trivial⟩
  · exact congrArg ([0xA8, ·]) (zero_append m)
  · exact congrArg ([·]) (append_eq_or 0b1010000#7 (BitVec.ofBool r))
  · cases r <;> rfl
  · exact congrArg₂ ([0x21, ·, ·]) (zero_append b) (zero_append e.val)
  · exact congrArg₂ ([0x22, ·, ·]) (zero_append b) (zero_append e.val)
  · exact congrArg ([·]) (append_eq_or 0b10110#5 q)
  · exact congrArg ([·]) (append_eq_or 0b0000#4 n)
  · exact congrArg ([·]) (append_eq_or 0b0001#4 n)

/-! ### The illegal request -/

theorem decodeRequest_noRow {w : Word} (pl : List Byte) (h : selectRow w = none) : decodeRequest w pl = .error .noRow := by
  simp only [decodeRequest, h]

theorem decodeRequest_zeroLength (pl : List Byte) : decodeRequest 0x40000000#32 pl = .error .zeroLength := rfl

theorem answerIllegal_idle {s : State} (hu : s.upc = .idle) :
    s.answerIllegal = { s with uprog := [], res := .illegalRequest, rspValid := true, rspData := 0 } := by
  simp only [State.answerIllegal, State.complete, hu]

/-- Settles O9: the decoder rejects both words, and not for a missing payload. -/
theorem illegalRequestChangesOnlyTheResult : Obligations.IllegalRequestChangesOnlyTheResult := by
  refine ⟨fun s w inputs hu hi hw => ?_, fun s hu => ?_⟩
  · rw [← answerIllegal_idle (s := { s with inbox := inputs }) hu]
    obtain hnone | rfl := hw
    · exact step_rejected hu hi (decodeRequest_noRow _ (selectRow_eq_none hnone))
    · exact step_rejected hu hi (decodeRequest_zeroLength _)
  · exact (whenIdle_idle _ hu).trans (congrArg _ (answerIllegal_idle hu))

/-! ### Samples and the directive lane -/

/-- Settles O1 by running the decoder on the eight images. -/
theorem sampleImagesDecode : Obligations.SampleImagesDecode := by
  unfold Obligations.SampleImagesDecode
  decide

/-- Settles O7: this is the rule `step_directive`. -/
theorem stepIssuesThePlacedDirective : Obligations.StepIssuesThePlacedDirective :=
  fun _ _ _ _ hu hi hd => step_directive hu hi hd

end Sys2Proof.Machine
end

section
/-! SUPPORT. Proofs about the framebuffer requests (spec/40_framebuffer.md): the next state of a request that completes at once,
the byte and the memory that a pixel store leaves, and the writes of the whole buffer. -/

namespace Sys2Proof.Machine

/-! ### Requests that complete at once (spec/10_state.md R31) -/

theorem acceptDone_idle {s : State} (i : Instr) (r : ResultCode) (data : Byte) (hu : s.upc = .idle) :
    acceptDone i r data s =
      .next { s with req := i, stPrev := s.st, uprog := [], res := r, rspValid := true, rspData := data } := by
  simp only [acceptDone, whenIdle_idle _ hu, State.complete, State.latch, hu]

theorem acceptStore_idle {s : State} (i : Instr) (m : Memory) (hu : s.upc = .idle) :
    acceptStore i m s =
      .next { s with fb := m, req := i, stPrev := s.st, uprog := [], res := .ok, rspValid := true, rspData := 0 } := by
  simp only [acceptStore, whenIdle_idle _ hu, State.complete, State.latch, hu]

theorem execSetPixel_out {s : State} {x y : Byte} {on : Bool} (h : setPixelIn s.fb (coord x) (coord y) on = none) :
    execSetPixel x y on s = acceptDone (.setPixel x y on) .outOfBounds 0 s := by
  simp only [execSetPixel, h]

theorem execSetPixel_in {s : State} {x y : Byte} {on : Bool} {m : Memory}
    (h : setPixelIn s.fb (coord x) (coord y) on = some m) :
    execSetPixel x y on s = acceptStore (.setPixel x y on) m s := by
  simp only [execSetPixel, h]

/-- Settles O27: the index operand is the address itself. -/
theorem fbReadGivesTheByte : Obligations.FbReadGivesTheByte := by
  intro s idx a hu ha
  have hindex : indexOperand idx = a := Fin.ext ha.symm
  exact hindex ▸ acceptDone_idle (.fbRead idx) .ok _ hu

/-! ### SET_PIXEL (R130 to R132) -/

/-- The byte that `SET_PIXEL` stores: `v` with the bit of row `y` made `on` (R130). -/
def withPixel (v : Byte) (y : Nat) (on : Bool) : Byte :=
  if on then v ||| pixelMask y else v &&& ~~~pixelMask y

theorem getLsbD_withPixel (v : Byte) (y : Nat) (on : Bool) {b : Nat} (hb : b < 8) :
    (withPixel v y on).getLsbD b = if b = pixelBit y then on else v.getLsbD b := by
  cases on with
  | true =>
    simp only [withPixel, if_true, BitVec.getLsbD_or, getLsbD_pixelMask]
    split <;> simp [*]
  | false =>
    simp only [withPixel, Bool.false_eq_true, if_false, BitVec.getLsbD_and, BitVec.getLsbD_not, getLsbD_pixelMask]
    split <;> simp [*]

theorem withPixel_withPixel (v : Byte) (y : Nat) (on : Bool) : withPixel (withPixel v y on) y on = withPixel v y on := by
  apply BitVec.eq_of_getLsbD_eq
  intro b hb
  simp only [getLsbD_withPixel _ _ _ hb]
  split <;> rfl

theorem pixelOperand_inRange {x y : Nat} {i : FbIndex} (hx : x < WIDTH) (hy : y < HEIGHT) (hi : i.val = pixelIdx x y) :
    pixelOperand x y = some (i, pixelBit y) := by
  have hin : inBounds x y = true := (inBounds_iff x y).2 (by simp only [WIDTH, HEIGHT] at hx hy; omega)
  simp [pixelOperand, hin, ← hi]

theorem setPixelIn_inRange (m : Memory) {x y : Nat} (on : Bool) {i : FbIndex} (hx : x < WIDTH) (hy : y < HEIGHT)
    (hi : i.val = pixelIdx x y) : setPixelIn m x y on = some (m.write i (withPixel (m.read i) y on)) := by
  simp only [setPixelIn, pixelOperand_inRange hx hy hi, withPixel, pixelMask]

theorem setPixelIn_outOfRange (m : Memory) {x y : Nat} (on : Bool) (h : WIDTH ≤ x ∨ HEIGHT ≤ y) :
    setPixelIn m x y on = none := by
  rw [← Option.not_isSome_iff_eq_none, boundsCheckOverAllIntegers]
  simp only [WIDTH, HEIGHT] at h
  omega

/-- Writing a byte that already stands there changes nothing. -/
theorem Memory.write_read_self {m : Memory} (h : m.wf = true) (a : FbIndex) : m.write a (m.read a) = m := by
  refine Memory.ext_read (Memory.write_wf h a _) h rfl fun b => ?_
  rw [Memory.read_write h]
  split
  · next hab => rw [hab]
  · rfl

/-- A byte that a store of the pixel left there is left as it is by the next. -/
theorem Memory.write_withPixel_again {m : Memory} (h : m.wf = true) {i : FbIndex} {v : Byte} {y : Nat} {on : Bool}
    (hread : m.read i = withPixel v y on) : m.write i (withPixel (m.read i) y on) = m := by
  have hstands : withPixel (m.read i) y on = m.read i := by rw [hread, withPixel_withPixel]
  rw [hstands, Memory.write_read_self h]

/-- Settles O22: the store writes one byte, and in it the mask changes one bit. -/
theorem setPixelWritesItsBit : Obligations.SetPixelWritesItsBit := by
  intro s x y on i hu hwf hx hy hi
  have hread (j : FbIndex) := Memory.read_write hwf i (withPixel (s.fb.read i) y.toNat on) j
  refine ⟨_, (execSetPixel_in (setPixelIn_inRange s.fb on hx hy hi)).trans (acceptStore_idle _ _ hu), ?_, ?_, ?_⟩
  · rw [hread, if_pos rfl]
    exact (getLsbD_withPixel _ _ on (pixelBit_lt y.toNat)).trans (if_pos rfl)
  · intro j b hb hother
    rw [hread]
    split
    · next hj =>
      have hbit : b ≠ pixelBit y.toNat := hother.resolve_left (not_not_intro hj.symm)
      rw [getLsbD_withPixel _ _ _ hb, if_neg hbit, hj]
    · rfl
  · have hstored := (hread i).trans (if_pos rfl)
    exact (setPixelIn_inRange _ on hx hy hi).trans
      (congrArg some (Memory.write_withPixel_again (Memory.write_wf hwf i _) hstored))

/-- Settles O23: out of bounds there is nothing to store. -/
theorem outOfRangePixelChangesNothing : Obligations.OutOfRangePixelChangesNothing := fun s _ _ on hu h =>
  (execSetPixel_out (setPixelIn_outOfRange s.fb on h)).trans (acceptDone_idle _ _ _ hu)

/-! ### The writes of the whole buffer (R133 to R136) -/

theorem Memory.bytes_fill (m : Memory) (f : FbIndex → Byte) : (m.fill f).bytes = allIndices.map f :=
  List.map_congr_left fun a _ => Memory.read_fill m f a

/-- Settles O24: `CLEAR` fills with 0, and a fill reads as what it writes. -/
theorem clearYieldsZeroBytes : Obligations.ClearYieldsZeroBytes := by
  intro s hu
  refine ⟨_, acceptStore_idle .clear _ hu, ?_, Memory.read_fill s.fb _, Memory.fill_wf s.fb _⟩
  rw [Memory.bytes_fill, List.map_const', allIndices_length]

theorem map_get_allIndices (v : Vector Byte 1024) : allIndices.map v.get = v.toList := by
  apply List.ext_getElem <;> simp [allIndices, Vector.get]

/-- Settles O25: `BULK_REPLACE` fills with the payload. -/
theorem bulkReplaceWritesThePayload : Obligations.BulkReplaceWritesThePayload := by
  intro s payload hu
  refine ⟨_, acceptStore_idle (.bulkReplace payload) _ hu, ?_, Memory.fill_wf s.fb _⟩
  rw [Memory.bytes_fill, map_get_allIndices]

/-- The loop of R133 and R135 over the addresses `l`: byte `a` becomes `f a`, one `MemWrite` after the other. -/
def Memory.writeEach (f : FbIndex → Byte) (l : List FbIndex) (m : Memory) : Memory :=
  l.foldl (fun n a => n.write a (f a)) m

/-- The loop keeps the canonical form and the free content, and leaves `f` at the addresses it has passed. -/
theorem Memory.writeEach_spec (f : FbIndex → Byte) (l : List FbIndex) {m : Memory} (h : m.wf = true) :
    (m.writeEach f l).wf = true ∧ (m.writeEach f l).init = m.init ∧
    ∀ b, (m.writeEach f l).read b = if b ∈ l then f b else m.read b := by
  induction l generalizing m with
  | nil => exact ⟨h, rfl, fun _ => (if_neg List.not_mem_nil).symm⟩
  | cons a rest ih =>
    obtain ⟨hwf, hinit, hread⟩ := ih (Memory.write_wf h a (f a))
    refine ⟨hwf, hinit, fun b => (hread b).trans ?_⟩
    rw [Memory.read_write h]
    grind

theorem Memory.fill_eq_writeEach {m : Memory} (h : m.wf = true) (f : FbIndex → Byte) :
    m.fill f = m.writeEach f allIndices := by
  obtain ⟨hwf, hinit, hread⟩ := Memory.writeEach_spec f allIndices h
  refine Memory.ext_read (Memory.fill_wf m f) hwf ((Memory.fill_init m f).trans hinit.symm) fun a => ?_
  rw [Memory.read_fill, hread, if_pos (mem_allIndices a)]

theorem Memory.fill_read_self {m : Memory} (h : m.wf = true) : m.fill m.read = m :=
  Memory.ext_read (Memory.fill_wf m m.read) h (Memory.fill_init m m.read) (Memory.read_fill m m.read)

/-- Settles O26: memories in canonical form over the same free content are equal when they read the same. -/
theorem wholeBufferWriteIsTheLoop : Obligations.WholeBufferWriteIsTheLoop :=
  fun _ f h => ⟨Memory.fill_eq_writeEach h f, Memory.fill_read_self h⟩

end Sys2Proof.Machine
end

section
/-! SUPPORT. Proofs about the codec (spec/41_command_codec.md): where a directive's bytes come from, and how many there are. -/

namespace Sys2Proof.Machine

theorem directiveBytes_length (d : Directive) : (directiveBytes d).length = 1 + d.paramCount := by
  cases d with
  | other c ps => exact Nat.add_comm ps.toList.length 1
  | _ => rfl

/-- The two sources of a directive's bytes (R151): the default table, or an entry of the integrator's that has the right length. -/
theorem codec_cases (p : Params) (d : Directive) :
    codec p d = directiveBytes d ∨
    codecEntry p.codecTable d = some (codec p d) ∧ (codec p d).length = 1 + d.paramCount := by
  cases d with
  | other c ps => exact .inl rfl
  | _ =>
    simp only [codec]
    split
    · next hentry =>
      split
      · next hlength => exact .inr ⟨hentry, hlength⟩
      · exact .inl rfl
    · exact .inl rfl

/-- Settles O33: the default table has the right lengths, and an entry of the integrator's counts only when it has. -/
theorem codecLengthsAreFixed : Obligations.CodecLengthsAreFixed := by
  intro p d
  obtain hdefault | ⟨-, hlength⟩ := codec_cases p d
  · rw [hdefault, directiveBytes_length]
  · exact hlength

end Sys2Proof.Machine
end

section
/-! SUPPORT. Proofs about `INIT` and `RESET_SEQ` (spec/42_init_state_machine.md): the transactions of a sequence, what the
micro-ops of the two requests leave, and the delays around the writes of the reset line. -/

namespace Sys2Proof.Machine

/-! ### The transactions of a sequence (R183) -/

theorem cmdFrames_eq_flatMap (p : Params) (seq : List Directive) : cmdFrames p seq = seq.flatMap fun d => cmdFrames p [d] := by
  cases hf : p.cmdFraming with
  | perDirective => simp [cmdFrames, hf, List.map_eq_flatMap]
  | perByte => simp [cmdFrames, hf]

/-- Settles O32: the frames of a sequence are those of its directives in order, and each frame is one transaction. -/
theorem sequencesIssueTheirDirectivesInOrder : Obligations.SequencesIssueTheirDirectivesInOrder := by
  intro p seq
  rw [cmdFrames_eq_flatMap, cmdTxns, List.flatMap_assoc]
  rfl

/-! ### The micro-ops of `INIT` (R181) -/

@[simp] theorem busWrites_resetTiming (p : Params) : busWrites (resetTiming p) = 0 := rfl
@[simp] theorem okEvents_resetTiming (p : Params) : okEvents (resetTiming p) = resetEvents p := rfl
@[simp] theorem select_resetTiming (p : Params) (l : Level) : lineAfter .select l (resetTiming p) = l := rfl
@[simp] theorem mode_resetTiming (p : Params) (l : Level) : lineAfter .mode l (resetTiming p) = l := rfl
@[simp] theorem reset_resetTiming (p : Params) (l : Level) : lineAfter .reset l (resetTiming p) = p.rstDeassert := rfl

/-- The command transactions of `frames`, as pairs of a mode level and bytes. -/
def cmdPairs (frames : List (List Byte)) : List (Level × List Byte) := frames.map fun f => (Level.low, f)

@[simp] theorem cmdPairs_length (frames : List (List Byte)) : (cmdPairs frames).length = frames.length := List.length_map _

@[simp] theorem okTxns_cmdPairs (p : Params) (frames : List (List Byte)) :
    okTxns p (cmdPairs frames) = frames.flatMap (txnEvents p .low .ok) := by
  simp [okTxns, cmdPairs, List.flatMap_map]

/-- The micro-ops of an `INIT` that has issued the frames `frames` so far: the reset timing and a transaction for each. -/
def initOps (p : Params) (frames : List (List Byte)) : List MicroOp :=
  .state .resetting :: (resetTiming p ++ .state .configuring :: txnsProgram p (cmdPairs frames))

theorem initProgram_eq_initOps (p : Params) : initProgram p = initOps p (cmdFrames p p.initSeq) ++ [.state .ready] := by
  simp only [initProgram, initOps, cmdPairs, cmdTxns_eq, List.append_assoc, List.cons_append, List.nil_append]

/-- The micro-ops of an `INIT` up to the bus write that follows the transactions of `before`. -/
def initOpsToWrite (p : Params) (before : List (List Byte)) : List MicroOp :=
  initOps p before ++ [.line .select p.selAssert, .line .mode .low]

theorem initProgram_split {p : Params} {before after : List (List Byte)} {frame : List Byte}
    (h : cmdFrames p p.initSeq = before ++ frame :: after) :
    ∃ post, initProgram p = initOpsToWrite p before ++ .tx frame :: post :=
  ⟨.line .select p.selDeassert :: (txnsProgram p (cmdPairs after) ++ [.state .ready]), by
    simp [initProgram_eq_initOps, h, initOpsToWrite, initOps, cmdPairs, txnsProgram, txn]⟩

@[simp] theorem initOps_length (p : Params) (frames : List (List Byte)) : (initOps p frames).length = 8 + 4 * frames.length := by
  simp [initOps, resetTiming]; omega

@[simp] theorem busWrites_initOps (p : Params) (frames : List (List Byte)) : busWrites (initOps p frames) = frames.length := by
  simp [initOps, busWrites]

@[simp] theorem okEvents_initOps (p : Params) (frames : List (List Byte)) :
    okEvents (initOps p frames) = resetEvents p ++ frames.flatMap (txnEvents p .low .ok) := by
  simp [initOps, okEvents]

@[simp] theorem reset_initOps (p : Params) (frames : List (List Byte)) (l : Level) :
    lineAfter .reset l (initOps p frames) = p.rstDeassert := by
  simp [initOps, lineAfter]

theorem select_initOps {p : Params} {frames : List (List Byte)} (h : frames ≠ []) (l : Level) :
    lineAfter .select l (initOps p frames) = p.selDeassert := by
  simp [initOps, lineAfter, select_txnsProgram, cmdPairs, h]

theorem mode_initOps {p : Params} {frames : List (List Byte)} (h : frames ≠ []) (l : Level) :
    lineAfter .mode l (initOps p frames) = .low := by
  obtain ⟨front, last, rfl⟩ := List.eq_nil_or_concat frames |>.resolve_left h
  simp [initOps, lineAfter, mode_txnsProgram, cmdPairs]

theorem initSeq_ne_nil {p : Params} (h : p.wf = true) : p.initSeq ≠ [] := by
  intro he
  simp [Params.wf, he, initSeqOk] at h

theorem exec_init {s : State} (hu : s.upc = .idle) :
    exec .init s = .next ((s.latch .init).load (initProgram s.cfg)) := whenIdle_idle _ hu

/-- Settles O29: the whole program runs, and there is a frame to leave select and mode as its transaction does. -/
theorem initBringsTheBlockToReady : Obligations.InitBringsTheBlockToReady := by
  intro s rest hu hwf ha
  have hframes := cmdFrames_ne_nil s.cfg (initSeq_ne_nil hwf)
  have hprog := initProgram_eq_initOps s.cfg
  have hlen : (initProgram s.cfg).length = 9 + 4 * (cmdFrames s.cfg s.cfg.initSeq).length := by
    rw [hprog]; simp; omega
  have hrun := steps_loaded .init (prog := initProgram s.cfg) rest (by simp [hprog]) (by simpa [hprog, busWrites] using ha)
  refine ⟨_, exec_init hu, State.load_st .., rfl, State.load_trace .., State.load_fb .., ?_⟩
  rw [← hlen, hrun, hprog]
  simp [State.afterOk, State.complete, State.latch, stAfter, lineAfter, okEvents, select_initOps hframes, mode_initOps hframes]

/-- Settles O30: the program runs to the failed bus write, and the abort rule ends it there. -/
theorem initFailureEndsInFaulted : Obligations.InitFailureEndsInFaulted := by
  intro s rest before after frame hu hframes ha
  obtain ⟨post, hprog⟩ := initProgram_split hframes
  have hlen : 8 + 4 * before.length + 3 = (initOpsToWrite s.cfg before).length + 1 := by simp [initOpsToWrite]
  have hrun := steps_failed .init (initOpsToWrite s.cfg before) post frame rest (by simpa [initOpsToWrite, busWrites] using ha)
  refine ⟨_, exec_init hu, ?_⟩
  rw [hlen, hprog, hrun]
  simp [State.enterFaulted, State.afterOk, State.complete, State.latch, State.setLine, State.record, initOpsToWrite, lineAfter,
    okEvents, txnEvents]

/-! ### `RESET_SEQ` (R190 to R192) -/

theorem exec_resetSeq {s : State} (hu : s.upc = .idle) :
    exec .resetSeq s = .next ((s.latch .resetSeq).load (resetSeqProgram s.cfg s.st)) := whenIdle_idle _ hu

/-- Once `RESET_SEQ` has run its first micro-op, and until it runs its last, the session is in `Resetting`. -/
theorem stAfter_take_resetSeqProgram (p : Params) (prev s : Session) {n : Nat} (h1 : 1 ≤ n) (h7 : n ≤ 7) :
    stAfter s ((resetSeqProgram p prev).take n) = .resetting := by
  obtain ⟨n, rfl⟩ := Nat.exists_eq_add_of_le' h1
  have htake : (resetSeqProgram p prev).take (n + 1) = .state .resetting :: (resetTiming p).take n := by
    rw [resetSeqProgram_eq, List.take_succ_cons, List.take_append_of_le_length]
    simp only [resetTiming, List.length_cons, List.length_nil]; omega
  rw [htake, stAfter]
  exact stAfter_of_no_state (fun x hx => state_notMem_resetTiming p x (List.mem_of_mem_take hx)) _

theorem postState_toUninitialized {p : Params} {prev : Session} (hp : p.postReset = .toUninitialized) (h : prev ≠ .faulted) :
    postState p prev = .uninitialized := by
  cases prev <;> simp_all [postState]

theorem postState_keepPrevious {p : Params} {prev : Session} (hp : p.postReset = .keepPrevious) : postState p prev = prev := by
  cases prev <;> simp [postState, hp]

/-- The first `n` micro-ops of a program without bus writes, from its acceptance. -/
theorem steps_loaded_take (s : State) (i : Instr) {prog : List MicroOp} {n : Nat} (hb : busWrites prog = 0)
    (hn : n < prog.length) :
    steps n ((s.latch i).load prog) =
      .next { (s.latch i).afterOk (prog.take n) s.answers with uprog := prog, upc := .running n } := by
  have hload : (s.latch i).load prog = { s.latch i with uprog := prog, upc := .running 0 } := by
    cases prog with
    | nil => cases hn
    | cons => rfl
  have hwrites : busWrites (prog.take n) = 0 := by
    rw [← List.take_append_drop n prog, busWrites_append] at hb
    omega
  have hrun := steps_through (s := { s.latch i with uprog := prog, upc := .running 0 }) [] (prog.take n) (prog.drop n) s.answers
    (by simpa using hn) rfl rfl (List.take_append_drop n prog).symm (by rw [hwrites]; rfl)
  have hlen : (prog.take n).length = n := List.length_take_of_le (Nat.le_of_lt hn)
  rw [hlen] at hrun
  rw [hload, hrun]
  simp [State.afterOk]

/-- Settles O31: the program has eight micro-ops and no bus write, so it runs whatever the transport answers. -/
theorem resetSeqPulsesTheResetLine : Obligations.ResetSeqPulsesTheResetLine := by
  intro s hu _
  refine ⟨_, postState s.cfg s.st, exec_resetSeq hu, ?_, fun n h1 h7 => ?_, ?_, ?_, ?_⟩
  · exact steps_loaded .resetSeq (prog := resetSeqProgram s.cfg s.st) s.answers (by simp [resetSeqProgram_eq]) rfl
  · exact ⟨_, steps_loaded_take s .resetSeq rfl (Nat.lt_succ_of_le h7), stAfter_take_resetSeqProgram s.cfg s.st s.st h1 h7⟩
  · intro h; rw [h]; rfl
  · exact fun h hp => postState_toUninitialized hp h
  · exact fun _ hp => postState_keepPrevious hp

/-! ### The delays around the writes of the reset line (R193) -/

/-- After each event of `A` in the trace `t` comes a delay of at least `shortest`, and no event of `B` before it. -/
def DelayedAfter (A B : Event → Prop) (shortest : Duration) (t : List Event) : Prop :=
  ∀ (i : Nat) (a : Event), t[i]? = some a → A a →
    ∃ (k : Nat) (d : Duration), i < k ∧ t[k]? = some (.delay d) ∧ shortest ≤ d ∧
      ∀ (j : Nat) (b : Event), i < j → j ≤ k → t[j]? = some b → ¬ B b

section
variable {A B : Event → Prop} {shortest : Duration} {t u : List Event}

theorem DelayedAfter.append (ht : DelayedAfter A B shortest t) (hu : DelayedAfter A B shortest u) :
    DelayedAfter A B shortest (t ++ u) := by
  intro i a hi hA
  by_cases h : i < t.length
  · rw [List.getElem?_append_left h] at hi
    obtain ⟨k, d, hik, hk, hd, hB⟩ := ht i a hi hA
    exact ⟨k, d, hik, by grind, hd, by grind⟩
  · rw [List.getElem?_append_right (Nat.le_of_not_lt h)] at hi
    obtain ⟨k, d, hik, hk, hd, hB⟩ := hu (i - t.length) a hi hA
    exact ⟨t.length + k, d, by omega, by grind, hd, fun j b _ _ _ => hB (j - t.length) b (by omega) (by omega) (by grind)⟩

theorem DelayedAfter.of_forall_not (h : ∀ a ∈ t, ¬ A a) : DelayedAfter A B shortest t :=
  fun _ a hi hA => absurd hA (h a (List.mem_of_getElem? hi))

/-- In every beginning of such a trace a long enough delay lies between an event of `A` and a later event of `B`. -/
theorem DelayedAfter.between (h : DelayedAfter A B shortest (t ++ u)) {i j : Nat} {a b : Event} (hij : i < j)
    (hi : t[i]? = some a) (hA : A a) (hj : t[j]? = some b) (hB : B b) :
    ∃ k d, i < k ∧ k < j ∧ t[k]? = some (Event.delay d) ∧ shortest ≤ d := by
  obtain ⟨k, d, hik, hk, hd, hno⟩ := h i a (by grind) hA
  have hkj : k < j := Nat.lt_of_not_le fun hjk => hno j b hij hjk (by grind) hB
  exact ⟨k, d, hik, hkj, by grind, hd⟩

end

/-- The timing of spec/42_init_state_machine.md R193: a settle delay after every write of the reset line, before any bus write,
and a pulse delay after every assertion of it, before any deassertion. -/
structure ResetTimed (p : Params) (t : List Event) : Prop where
  settle : DelayedAfter (fun a => ∃ l, a = .line .reset l) (fun b => b.isBus = true) p.tSettleMin t
  pulse  : DelayedAfter (· = .line .reset p.rstAssert) (· = .line .reset p.rstDeassert) p.tPulseMin t

theorem ResetTimed.append {p : Params} {t u : List Event} (ht : ResetTimed p t) (hu : ResetTimed p u) : ResetTimed p (t ++ u) :=
  ⟨ht.settle.append hu.settle, ht.pulse.append hu.pulse⟩

/-- Events that leave the reset line alone keep the timing. -/
theorem ResetTimed.of_no_reset {p : Params} {t : List Event} (h : ∀ l, Event.line .reset l ∉ t) : ResetTimed p t where
  settle := .of_forall_not fun _ ha ⟨l, he⟩ => h l (he ▸ ha)
  pulse  := .of_forall_not fun _ ha he => h _ (he ▸ ha)

theorem rstAssert_ne_rstDeassert (p : Params) : p.rstAssert ≠ p.rstDeassert := by
  cases h : p.rstAssert <;> simp [Params.rstDeassert, h, Level.other]

/-- The reset line is asserted once, by the third event. -/
theorem resetEvents_assert {p : Params} {i : Nat} (h : (resetEvents p)[i]? = some (.line .reset p.rstAssert)) : i = 2 := by
  have hne := rstAssert_ne_rstDeassert p
  have hi : i < 6 := (List.getElem?_eq_some_iff.1 h).1
  interval_cases i <;> simp_all [resetEvents]

theorem resetEvents_no_bus (p : Params) : ∀ b ∈ resetEvents p, b.isBus = false := by simp [resetEvents, Event.isBus]

/-- The delays of a well-formed configuration (spec/00_scope.md R14). -/
theorem delays_of_wf {p : Params} (h : p.wf = true) : p.tPulseMin ≤ p.tRstPulse ∧ p.tSettleMin ≤ p.tRstSettle := by
  simp only [Params.wf, Bool.and_eq_true, decide_eq_true_eq] at h
  obtain ⟨⟨⟨⟨hpulse, hsettle⟩, -⟩, -⟩, -⟩ := h
  exact ⟨hpulse, hsettle⟩

/-- The last event of the reset timing is the settle delay, and the pulse delay stands right behind the assertion. -/
theorem resetEvents_timed {p : Params} (h : p.wf = true) : ResetTimed p (resetEvents p) := by
  obtain ⟨hpulse, hsettle⟩ := delays_of_wf h
  constructor
  · rintro i a hi ⟨l, rfl⟩
    have hi6 : i < 6 := (List.getElem?_eq_some_iff.1 hi).1
    have hi5 : i ≠ 5 := by rintro rfl; cases hi
    refine ⟨5, p.tRstSettle, by omega, rfl, hsettle, fun j b _ _ hj => ?_⟩
    simp [resetEvents_no_bus p b (List.mem_of_getElem? hj)]
  · rintro i a hi rfl
    obtain rfl : i = 2 := resetEvents_assert hi
    refine ⟨3, p.tRstPulse, by omega, rfl, hpulse, ?_⟩
    rintro j b hj hj3 hb rfl
    obtain rfl : j = 3 := by omega
    cases hb

theorem txnEvents_timed (p : Params) (m : Level) (r : BusAnswer) (bytes : List Byte) : ResetTimed p (txnEvents p m r bytes) :=
  .of_no_reset fun l => by simp [txnEvents]

theorem okTxns_timed (p : Params) (txns : List (Level × List Byte)) : ResetTimed p (okTxns p txns) :=
  .of_no_reset fun l => by simp [okTxns, txnEvents]

theorem WellFramed.timed {p : Params} {t : List Event} (h : p.wf = true) (ht : WellFramed p t) : ResetTimed p t := by
  induction ht with
  | nil => exact .of_no_reset fun l => List.not_mem_nil
  | reset _ ih => exact ih.append (resetEvents_timed h)
  | txn m r _ _ ih => exact ih.append (txnEvents_timed p m r _)

theorem okEvents_initProgram (p : Params) : okEvents (initProgram p) =
    resetEvents p ++ (cmdFrames p p.initSeq).flatMap (txnEvents p .low .ok) := by
  simp [initProgram_eq_initOps, okEvents]

theorem okEvents_resetSeqProgram (p : Params) (prev : Session) : okEvents (resetSeqProgram p prev) = resetEvents p := rfl

/-- A micro-program run to its end keeps the timing. -/
theorem expand_timed {p : Params} (h : p.wf = true) (prev : Session) (m : Memory) (i : Instr) :
    ResetTimed p (okEvents (expand p prev m i)) := by
  by_cases hi : i = .init
  · rw [hi, expand, okEvents_initProgram, ← okTxns_cmdPairs]
    exact (resetEvents_timed h).append (okTxns_timed p _)
  by_cases hr : i = .resetSeq
  · rw [hr, expand, okEvents_resetSeqProgram]
    exact resetEvents_timed h
  · obtain ⟨txns, htxns, -⟩ := expand_eq_txnsProgram p prev m hi hr
    rw [htxns, okEvents_txnsProgram]
    exact okTxns_timed p txns

/-- The trace of a state of the invariant, with the events that its running request still owes, keeps the timing. -/
theorem SequencerInv.timed {s : State} (hs : SequencerInv s) (h : s.cfg.wf = true) : ∃ u, ResetTimed s.cfg (s.trace ++ u) := by
  cases hu : s.upc with
  | idle =>
    simp only [SequencerInv, hu] at hs
    exact ⟨[], by simpa using hs.framed.timed h⟩
  | running k =>
    have hb := hs.busy hu
    obtain ⟨t, ht, htrace⟩ := hb.framed
    refine ⟨okEvents (s.uprog.drop k), ?_⟩
    rw [htrace, List.append_assoc, ← okEvents_append, List.take_append_drop, hb.uprog]
    exact (ht.timed h).append (expand_timed h ..)

/-- Settles O54: the trace is the beginning of one that keeps the timing. -/
theorem resetTimingIsHonoured : Obligations.ResetTimingIsHonoured := by
  intro s hs hwf i j hij
  obtain ⟨u, hsettle, hpulse⟩ := hs.timed hwf
  refine ⟨?_, fun hi hj => hpulse.between hij hi rfl hj rfl⟩
  rintro ⟨l, hi⟩ ⟨bytes, r, hj⟩
  exact hsettle.between hij hi ⟨l, rfl⟩ hj rfl

end Sys2Proof.Machine
end

section
/-! SUPPORT. Proofs about micro-ops and framed transactions (spec/43_framing.md): what a `WAIT`, a `STATE` and a bus write do, the
frames of a sequence, and the requests that are transactions only. -/

namespace Sys2Proof.Machine

/-! ### Micro-ops (R211 to R213, R216) -/

/-- Settles O14: the step runs the micro-op, whose effect is its definition. -/
theorem waitAndStateMicroOpsTakeEffect : Obligations.WaitAndStateMicroOpsTakeEffect :=
  fun _ _ hu => ⟨fun _ h => (step_busy hu).trans (microStep_some h), fun _ h => (step_busy hu).trans (microStep_some h)⟩

/-- The transport's answer leaves all but the answers, and the count of those not listed, alone. -/
theorem State.dropAnswer_eq (s : State) : s.dropAnswer =
    { s with answers := s.answers.tail, draws := if s.answers = [] then s.draws + 1 else s.draws } := by
  unfold State.dropAnswer
  split <;> simp_all

theorem runMicroOp_tx_ok {s : State} (k : Nat) (bytes : List Byte) (h : s.nextAnswer = .ok) :
    s.runMicroOp k (.tx bytes) = (s.dropAnswer.record (.bus bytes .ok)).advance k := by
  simp only [State.runMicroOp, h]

theorem runMicroOp_tx_fail {s : State} (k : Nat) (bytes : List Byte) (h : s.nextAnswer = .fail) :
    s.runMicroOp k (.tx bytes) = (s.dropAnswer.record (.bus bytes .fail)).enterFaulted := by
  simp only [State.runMicroOp, h]

/-- Settles O15: the step runs the bus write, which the transport answers with `Ok`. -/
theorem answeredBusWriteIsRecorded : Obligations.AnsweredBusWriteIsRecorded := by
  intro s k bytes hu hop h
  rw [step_busy hu, microStep_some hop, runMicroOp_tx_ok (s := { s with rspValid := false }) k bytes h]
  simp only [State.dropAnswer_eq, State.record]

/-- Settles O16: the step runs the bus write, which the transport answers with `Fail`, so it ends in the abort rule. -/
theorem failedBusWriteEntersFaulted : Obligations.FailedBusWriteEntersFaulted := by
  intro s k bytes hu hop h
  rw [step_busy hu, microStep_some hop, runMicroOp_tx_fail (s := { s with rspValid := false }) k bytes h]
  simp [State.dropAnswer_eq, State.record, State.enterFaulted, State.setLine, State.complete]

/-! ### The frames of a sequence (R217) -/

theorem cmdFrames_perDirective {p : Params} (h : p.cmdFraming = .perDirective) (seq : List Directive) :
    cmdFrames p seq = seq.map (codec p) := by
  simp only [cmdFrames, h]

theorem cmdFrames_perByte {p : Params} (h : p.cmdFraming = .perByte) (seq : List Directive) :
    cmdFrames p seq = seq.flatMap fun d => (codec p d).map fun b => [b] := by
  simp only [cmdFrames, h]

theorem flatten_cmdFrames (p : Params) (seq : List Directive) : (cmdFrames p seq).flatten = seq.flatMap (codec p) := by
  cases h : p.cmdFraming with
  | perDirective => rw [cmdFrames_perDirective h, List.flatMap_def]
  | perByte =>
    have hbytes (bytes : List Byte) : (bytes.map fun b => [b]).flatten = bytes := by
      rw [← List.flatMap_def, List.flatMap_singleton']
    rw [cmdFrames_perByte h]
    induction seq with
    | nil => rfl
    | cons d seq ih => simp [ih, hbytes]

/-- Settles O35, by the framing. -/
theorem framesCarryTheCodecBytes : Obligations.FramesCarryTheCodecBytes := by
  refine fun p seq => ⟨flatten_cmdFrames p seq, (cmdFrames_perDirective · seq), fun h f hf => ?_, fun f => frame_ne_nil⟩
  rw [cmdFrames_perByte h] at hf
  obtain ⟨d, -, hd⟩ := List.mem_flatMap.1 hf
  obtain ⟨b, -, rfl⟩ := List.mem_map.1 hd
  rfl

/-! ### Requests accepted in `Ready` (R214, R219, R221) -/

theorem acceptReady_idle {s : State} (i : Instr) (prog : List MicroOp) (hu : s.upc = .idle) (hst : s.st = .ready) :
    acceptReady i prog s = .next ((s.latch i).load prog) :=
  (acceptReady_ready i prog hst).trans (whenIdle_idle _ hu)

/-- A micro-program of transactions, every bus write answered `Ok`. -/
theorem steps_txnsProgram {s : State} (i : Instr) {txns : List (Level × List Byte)} (rest : List BusAnswer) (hne : txns ≠ [])
    (ha : s.answers = List.replicate txns.length .ok ++ rest) :
    steps (4 * txns.length) ((s.latch i).load (txnsProgram s.cfg txns)) = .next { s with
      stPrev := s.st, sel := s.cfg.selDeassert, mode := (txns.map Prod.fst).getLastD s.mode, req := i, uprog := [], upc := .idle,
      res := .ok, rspValid := true, rspData := 0, trace := s.trace ++ okTxns s.cfg txns, answers := rest } := by
  have hprog : txnsProgram s.cfg txns ≠ [] := by
    obtain ⟨t, txns, rfl⟩ := List.exists_cons_of_ne_nil hne
    exact List.cons_ne_nil _ _
  have hrun := steps_loaded i rest hprog (by rwa [busWrites_txnsProgram])
  rw [txnsProgram_length] at hrun
  rw [hrun]
  simp [State.afterOk, State.complete, State.latch, select_txnsProgram, mode_txnsProgram, hne]

theorem getLastD_cmdPairs {frames : List (List Byte)} (h : frames ≠ []) (l : Level) :
    ((cmdPairs frames).map Prod.fst).getLastD l = .low := by
  obtain ⟨front, last, rfl⟩ := List.eq_nil_or_concat frames |>.resolve_left h
  simp [cmdPairs]

/-- Settles O37: the micro-program of a directive is one command transaction for each frame, and there is a frame to leave select
and mode as its transaction does. -/
theorem directiveSendsItsCommandTransactions : Obligations.DirectiveSendsItsCommandTransactions := by
  intro s d rest hu hst ha
  have hframes : cmdFrames s.cfg [d] ≠ [] := cmdFrames_ne_nil s.cfg (List.cons_ne_nil d [])
  have hprog : directiveProgram s.cfg d = txnsProgram s.cfg (cmdPairs (cmdFrames s.cfg [d])) := cmdTxns_eq ..
  have hrun := steps_txnsProgram d.toInstr (txns := cmdPairs (cmdFrames s.cfg [d])) rest (by simpa [cmdPairs] using hframes)
    (by rwa [cmdPairs_length])
  rw [cmdPairs_length, getLastD_cmdPairs hframes, okTxns_cmdPairs, ← hprog] at hrun
  exact ⟨_, (exec_toInstr d s).trans (acceptReady_idle _ _ hu hst), hrun⟩

/-- The state `s`, its request `i` being the transaction of `bytes`, at the bus write. -/
def State.atBusWrite (i : Instr) (m : Level) (bytes : List Byte) (s : State) : State :=
  { s.latch i with
    sel := s.cfg.selAssert, mode := m, uprog := txn s.cfg m bytes, upc := .running 2,
    trace := s.trace ++ [.line .select s.cfg.selAssert, .line .mode m] }

theorem steps_atBusWrite (s : State) (i : Instr) (m : Level) (bytes : List Byte) :
    steps 2 ((s.latch i).load (txn s.cfg m bytes)) = .next (s.atBusWrite i m bytes) :=
  steps_through (s := (s.latch i).load (txn s.cfg m bytes)) [] [.line .select s.cfg.selAssert, .line .mode m]
    [.tx bytes, .line .select s.cfg.selDeassert] s.answers (by simp) rfl rfl rfl rfl

/-- One transaction, loaded as a micro-program, runs to its end, whatever the transport answers. -/
theorem steps_txn {s : State} (i : Instr) (m : Level) (bytes : List Byte) (r : BusAnswer) (hr : s.nextAnswer = r) :
    ∃ n, steps n ((s.latch i).load (txn s.cfg m bytes)) = .next { s.dropAnswer with
      st := if r = .ok then s.st else .faulted, stPrev := s.st, sel := s.cfg.selDeassert, mode := m, req := i, uprog := [],
      upc := .idle, res := if r = .ok then .ok else .busFailure, rspValid := true, rspData := 0,
      trace := s.trace ++ txnEvents s.cfg m r bytes } := by
  cases r with
  | fail =>
    have htx := failedBusWriteEntersFaulted (s.atBusWrite i m bytes) 2 bytes rfl rfl hr
    refine ⟨2 + 1, (steps_add 2 1 (steps_atBusWrite s i m bytes)).trans ((steps_one htx).trans ?_)⟩
    simp [State.dropAnswer_eq, State.atBusWrite, State.latch, txnEvents]
  | ok =>
    have htx := answeredBusWriteIsRecorded (s.atBusWrite i m bytes) 2 bytes rfl rfl hr
    rw [State.advance_more (by simp [State.atBusWrite, txn])] at htx
    refine ⟨2 + 2, (steps_add 2 2 (steps_atBusWrite s i m bytes)).trans ((steps_succ 1 htx).trans
      (steps_one (((lineMicroOpWritesItsRegister _ 3 s.cfg.selDeassert rfl).1 ?_).trans ?_)))⟩
    · simp [State.atBusWrite, txn]
    · rw [State.advance_last (by simp [State.atBusWrite, txn])]
      simp [State.dropAnswer_eq, State.atBusWrite, State.latch, State.complete, txnEvents]

/-- Settles O38: the micro-program is that one transaction. -/
theorem writeCommandIsOneCommandTransaction : Obligations.WriteCommandIsOneCommandTransaction := by
  intro s byte r hu hst hr
  obtain ⟨n, hrun⟩ := steps_txn (.writeCommand byte) .low [byte] r hr
  rw [hst] at hrun
  exact ⟨_, n, acceptReady_idle (.writeCommand byte) _ hu hst, hrun⟩

/-- Settles O39: the micro-program is that one transaction, which `MAX_CHUNK` does not cut. -/
theorem writeDataIsOneDataTransaction : Obligations.WriteDataIsOneDataTransaction := by
  intro s payload r hu hst hne hr
  obtain ⟨n, hrun⟩ := steps_txn (.writeData payload) .high payload r hr
  rw [hst] at hrun
  cases payload with
  | nil => exact absurd rfl hne
  | cons b rest => exact ⟨_, n, acceptReady_idle (.writeData (b :: rest)) _ hu hst, hrun⟩

/-! ### A refused `WRITE_DATA` (R221) -/

theorem exec_writeData_refused {s : State} {payload : List Byte} (hu : s.upc = .idle) (hst : s.st ≠ .ready)
    (hne : payload ≠ []) :
    exec (.writeData payload) s = .next { s with
      req := .writeData payload, stPrev := s.st, uprog := [], res := .notInitialized, rspValid := true, rspData := 0 } := by
  cases payload with
  | nil => exact absurd rfl hne
  | cons b rest => exact (acceptReady_other _ _ hst).trans (acceptDone_idle _ _ _ hu)

/-- Settles O41: the request is decoded, with its payload, before the session state is looked at. -/
theorem refusedWriteDataDropsItsPayload : Obligations.RefusedWriteDataDropsItsPayload := by
  intro s payload rest inputs hu hst hwf hi hpl
  have hdecode : decode (.request (0x4000#16 ++ BitVec.ofNat 16 payload.length) payload) = .ok (.writeData payload) :=
    requestsDecodeToThemselves (.writeData payload) rfl hwf
  have hd := decodeRequest_append rest (decodeRequest_of_decode hdecode)
  rw [← hpl] at hd
  have hne : payload ≠ [] := by rintro rfl; cases hwf
  rw [step_request hu hi hd]
  exact exec_writeData_refused (s := { s with inbox := inputs, plIn := rest }) hu hst hne

end Sys2Proof.Machine
end

section
/-! SUPPORT. Proofs about the sequencer's invariant (spec/43_framing.md R215): micro-programs are made of whole transactions, reset
timings and `STATE`s, and what follows for the lines, the trace and the bus writes at every micro-op. -/

namespace Sys2Proof.Machine

/-! ### What micro-programs are made of -/

/-- A micro-op that is none of `A` stands in `A ++ B` behind `A`. -/
theorem split_behind {A B pre post : List MicroOp} {op : MicroOp} (hA : op ∉ A) (h : A ++ B = pre ++ op :: post) :
    ∃ pre', pre = A ++ pre' ∧ B = pre' ++ op :: post := by
  obtain ⟨c, rfl, hc⟩ | ⟨c, rfl, hc⟩ := List.append_eq_append_iff.1 h
  · exact ⟨c, rfl, hc⟩
  · cases c with
    | nil => exact ⟨[], by simp, hc.symm⟩
    | cons z c => obtain ⟨rfl, -⟩ := List.cons.inj hc; simp at hA

/-- Micro-ops made of `STATE`s, whole reset timings and whole transactions, each of these one of `txns`. -/
inductive MadeOf (p : Params) (txns : List (Level × List Byte)) : List MicroOp → Prop where
  | nil : MadeOf p txns []
  | state (x : Session) {ops : List MicroOp} : MadeOf p txns ops → MadeOf p txns (.state x :: ops)
  | reset {ops : List MicroOp} : MadeOf p txns ops → MadeOf p txns (resetTiming p ++ ops)
  | txn {m : Level} {bytes : List Byte} {ops : List MicroOp} :
      (m, bytes) ∈ txns → MadeOf p txns ops → MadeOf p txns (txn p m bytes ++ ops)

namespace MadeOf

variable {p : Params} {txns : List (Level × List Byte)} {ops : List MicroOp}

theorem txnsProgram_append {chosen : List (Level × List Byte)} (hsub : chosen ⊆ txns) (h : MadeOf p txns ops) :
    MadeOf p txns (txnsProgram p chosen ++ ops) := by
  induction chosen with
  | nil => exact h
  | cons t chosen ih =>
    obtain ⟨ht, hrest⟩ := List.cons_subset.1 hsub
    exact .txn ht (ih hrest)

theorem txnsProgram (p : Params) (txns : List (Level × List Byte)) : MadeOf p txns (txnsProgram p txns) := by
  simpa using txnsProgram_append (List.Subset.refl txns) (.nil (p := p))

/-- Select is deasserted after such micro-ops where it was before. -/
theorem select (h : MadeOf p txns ops) : lineAfter .select p.selDeassert ops = p.selDeassert := by
  induction h with
  | nil => rfl
  | state | reset | txn => assumption

/-- The reset line is deasserted after such micro-ops where it was before. -/
theorem reset_line (h : MadeOf p txns ops) : lineAfter .reset p.rstDeassert ops = p.rstDeassert := by
  induction h with
  | nil => rfl
  | state | reset | txn => assumption

/-- Run to their end, such micro-ops keep a trace well framed. -/
theorem framed (h : MadeOf p txns ops) (hne : ∀ x ∈ txns, x.2 ≠ []) {t : List Event} (ht : WellFramed p t) :
    WellFramed p (t ++ okEvents ops) := by
  induction h generalizing t with
  | nil => simpa [okEvents] using ht
  | state x _ ih => exact ih ht
  | reset _ ih => simpa using ih ht.reset
  | txn hm _ ih => simpa [Machine.txn, okEvents, txnEvents] using ih (ht.txn _ .ok (hne _ hm))

/-- Where a bus write stands in such micro-ops: in one of the transactions, behind whole ones. -/
theorem split_tx (h : MadeOf p txns ops) {pre post : List MicroOp} {bytes : List Byte} (hops : ops = pre ++ .tx bytes :: post) :
    ∃ front m rest, pre = front ++ [.line .select p.selAssert, .line .mode m] ∧ post = .line .select p.selDeassert :: rest ∧
      MadeOf p txns front ∧ (m, bytes) ∈ txns := by
  induction h generalizing pre with
  | nil => simp at hops
  | state x _ ih =>
    obtain ⟨pre, rfl, h⟩ := split_behind (A := [.state x]) (by simp) hops
    obtain ⟨front, m, rest, rfl, hpost, hfront, hm⟩ := ih h
    exact ⟨.state x :: front, m, rest, rfl, hpost, hfront.state x, hm⟩
  | reset _ ih =>
    obtain ⟨pre, rfl, h⟩ := split_behind (tx_notMem_resetTiming p bytes) hops
    obtain ⟨front, m, rest, rfl, hpost, hfront, hm⟩ := ih h
    exact ⟨resetTiming p ++ front, m, rest, by rw [List.append_assoc], hpost, hfront.reset, hm⟩
  | @txn m' _ _ hm' _ ih =>
    obtain ⟨rfl, hop, rfl⟩ | ⟨pre, rfl, h⟩ :=
      split_after (A := [.line .select p.selAssert, .line .mode m']) (by simp) hops
    · cases hop
      exact ⟨[], m', _, rfl, rfl, .nil, hm'⟩
    · obtain ⟨pre, rfl, hrest⟩ := split_behind (A := [.line .select p.selDeassert]) (by simp) h
      obtain ⟨front, m, rest, rfl, hpost, hfront, hm⟩ := ih hrest
      exact ⟨Machine.txn p m' _ ++ front, m, rest, by simp [Machine.txn], hpost, hfront.txn hm', hm⟩

end MadeOf

/-- The transactions of a request's micro-program, each with its mode level (spec/43_framing.md R214, R217, R219, R221;
spec/44_update.md R231). -/
def requestTxns (p : Params) (m : Memory) (i : Instr) : List (Level × List Byte) :=
  match directiveOf i with
  | some d => cmdPairs (cmdFrames p [d])
  | none =>
    match i with
    | .init => cmdPairs (cmdFrames p p.initSeq)
    | .writeCommand byte => [(.low, [byte])]
    | .writeData (b :: rest) => [(.high, b :: rest)]
    | .update => updateTxns p m
    | _ => []

theorem requestTxns_toInstr (p : Params) (m : Memory) (d : Directive) :
    requestTxns p m d.toInstr = cmdPairs (cmdFrames p [d]) := by
  cases d <;> rfl

/-- No transaction is empty. -/
theorem requestTxns_ne_nil {p : Params} {m : Memory} {i : Instr} : ∀ t ∈ requestTxns p m i, t.2 ≠ [] := by
  have hcmd (seq : List Directive) : ∀ t ∈ cmdPairs (cmdFrames p seq), t.2 ≠ [] := by
    simpa [cmdPairs] using fun f => frame_ne_nil (f := f)
  cases hd : directiveOf i with
  | some d =>
    obtain rfl := eq_toInstr_of_directiveOf hd
    rw [requestTxns_toInstr]
    exact hcmd [d]
  | none =>
    cases i with
    | init => exact hcmd p.initSeq
    | update =>
      intro t ht
      obtain h | h := List.mem_append.1 ht
      · exact hcmd p.windowSeq t h
      · obtain ⟨c, hc, rfl⟩ := List.mem_map.1 h
        exact chunk_ne_nil hc
    | writeData q => cases q <;> simp [requestTxns, directiveOf]
    | resetSeq | writeCommand | setPixel | clear | bulkReplace | fbRead => simp [requestTxns, directiveOf]
    | displayOff | displayOn | setContrast | setMultiplexRatio | setAddressingMode | setSegmentRemap | setComScanDirection
    | setColumnWindow | setPageWindow | setPageStart | setColumnStartLow | setColumnStartHigh | other => cases hd

theorem whenReady_madeOf {p : Params} {txns : List (Level × List Byte)} {prog : List MicroOp} (prev : Session)
    (h : prog = txnsProgram p txns) : MadeOf p txns (whenReady prev prog) := by
  cases prev with
  | ready => exact h ▸ .txnsProgram p txns
  | uninitialized | resetting | configuring | faulted => exact .nil

/-- The micro-program of a request is made of its transactions. -/
theorem expand_madeOf (p : Params) (prev : Session) (m : Memory) (i : Instr) :
    MadeOf p (requestTxns p m i) (expand p prev m i) := by
  cases hd : directiveOf i with
  | some d =>
    obtain rfl := eq_toInstr_of_directiveOf hd
    rw [expand_toInstr, requestTxns_toInstr]
    exact whenReady_madeOf prev (cmdTxns_eq p _)
  | none =>
    cases i with
    | init =>
      rw [expand, initProgram_eq_initOps, initOps, List.cons_append, List.append_assoc, List.cons_append]
      exact .state _ (.reset (.state _ (.txnsProgram_append (List.Subset.refl _) (.state _ .nil))))
    | resetSeq => exact .state _ (.reset (.state _ .nil))
    | update => exact whenReady_madeOf prev (updateProgram_eq p m)
    | writeCommand b => exact whenReady_madeOf prev rfl
    | writeData q =>
      cases q with
      | nil => exact .nil
      | cons b rest => exact whenReady_madeOf prev rfl
    | setPixel | clear | bulkReplace | fbRead => exact .nil
    | displayOff | displayOn | setContrast | setMultiplexRatio | setAddressingMode | setSegmentRemap | setComScanDirection
    | setColumnWindow | setPageWindow | setPageStart | setColumnStartLow | setColumnStartHigh | other => cases hd

/-- A request that ends without a failure ends in a state in which a block can be idle (spec/10_state.md R25). -/
theorem stAfter_expand_settled (p : Params) {prev : Session} (m : Memory) (i : Instr) (h : prev.settled = true) :
    (stAfter prev (expand p prev m i)).settled = true := by
  by_cases hi : i = .init
  · subst hi
    simp [expand, initProgram, stAfter, Session.settled]
  by_cases hr : i = .resetSeq
  · subst hr
    simpa [expand, resetSeqProgram_eq, stAfter] using postState_settled p h
  · obtain ⟨txns, ht, -⟩ := expand_eq_txnsProgram p prev m hi hr
    rwa [ht, stAfter_txnsProgram]

/-! ### The invariant is kept (O51) -/

/-- The micro-ops `ops` of the running request have been executed, all bus writes answered `Ok`: `st`, the lines and the trace are
where they leave them. -/
structure Executed (ops : List MicroOp) (s : State) : Prop where
  st     : s.st = stAfter s.stPrev ops
  sel    : s.sel = lineAfter .select s.cfg.selDeassert ops
  rst    : s.rst = lineAfter .reset s.cfg.rstDeassert ops
  mode   : ∃ m, s.mode = lineAfter .mode m ops
  framed : ∃ t, WellFramed s.cfg t ∧ s.trace = t ++ okEvents ops

theorem BusyInv.executed {k : Nat} {s : State} (h : BusyInv k s) : Executed (s.uprog.take k) s :=
  ⟨h.st, h.sel, h.rst, h.mode, h.framed⟩

theorem BusyInv.madeOf {k : Nat} {s : State} (h : BusyInv k s) :
    MadeOf s.cfg (requestTxns s.cfg s.fb s.req) s.uprog :=
  h.uprog ▸ expand_madeOf ..

theorem Executed.afterOk {ops : List MicroOp} {s : State} (h : Executed ops s) (op : MicroOp) (answers : List BusAnswer)
    (draws : Nat) :
    Executed (ops ++ [op]) { State.afterOk [op] answers { s with rspValid := false } with draws := draws } := by
  obtain ⟨hst, hsel, hrst, ⟨m, hmode⟩, t, ht, htrace⟩ := h
  refine ⟨?_, ?_, ?_, ⟨m, ?_⟩, t, ht, ?_⟩ <;> simp [State.afterOk, *]

/-- A micro-program run to its end leaves an idle block of the invariant. -/
theorem Executed.complete {ops : List MicroOp} {s : State} {txns : List (Level × List Byte)} (h : Executed ops s)
    (hmade : MadeOf s.cfg txns ops) (hne : ∀ t ∈ txns, t.2 ≠ []) (hst : (stAfter s.stPrev ops).settled = true)
    (r : ResultCode) (data : Byte) : IdleInv (s.complete r data) where
  st := by rw [State.complete_st, h.st, hst]
  sel := h.sel.trans hmade.select
  rst := h.rst.trans hmade.reset_line
  uprog := rfl
  framed := by
    obtain ⟨t, ht, htrace⟩ := h.framed
    rw [State.complete_trace, htrace]
    exact hmade.framed hne ht

/-- A failed bus write leaves an idle block of the invariant: the abort rule makes its transaction whole (R216). -/
theorem Executed.enterFaulted {pre post : List MicroOp} {bytes : List Byte} {s : State} {txns : List (Level × List Byte)}
    (h : Executed pre s) (hmade : MadeOf s.cfg txns (pre ++ .tx bytes :: post)) (hne : ∀ t ∈ txns, t.2 ≠ [])
    {u : State} (hrst : u.rst = s.rst) (hcfg : u.cfg = s.cfg) (htrace : u.trace = s.trace ++ [.bus bytes .fail]) :
    IdleInv u.enterFaulted := by
  obtain ⟨front, m, rest, rfl, -, hfront, hm⟩ := hmade.split_tx rfl
  obtain ⟨t, ht, hs⟩ := h.framed
  refine ⟨rfl, rfl, ?_, rfl, ?_⟩
  · rw [State.enterFaulted_rst, State.enterFaulted_cfg, hrst, hcfg, h.rst, lineAfter_append, hfront.reset_line]
    rfl
  · have hwhole := (hfront.framed hne ht).txn m .fail (hne _ hm)
    simpa [hcfg, htrace, hs, okEvents, txnEvents] using hwhole

theorem take_add_one_of_getElem? {l : List MicroOp} {k : Nat} {op : MicroOp} (h : l[k]? = some op) :
    l.take (k + 1) = l.take k ++ [op] := by
  rw [List.take_add_one, h, Option.toList_some]

/-- The block moves on to the next micro-op, or its request ends, within the invariant. -/
theorem Executed.advance {k : Nat} {s : State} (h : Executed (s.uprog.take (k + 1)) s) (hprev : s.stPrev.settled = true)
    (hprog : s.uprog = expand s.cfg s.stPrev s.fb s.req) : SequencerInv (s.advance k) := by
  by_cases hk : k + 1 < s.uprog.length
  · rw [State.advance_more hk]
    exact BusyInv.mk hprev hprog hk h.st h.sel h.rst h.mode h.framed
  · have hend := Nat.not_lt.1 hk
    rw [List.take_of_length_le hend, hprog] at h
    rw [State.advance_last hend]
    exact h.complete (expand_madeOf ..) requestTxns_ne_nil (stAfter_expand_settled _ _ _ hprev) .ok 0

/-- Every micro-op of a running request keeps the invariant. -/
theorem BusyInv.runMicroOp {k : Nat} {s : State} {op : MicroOp} (h : BusyInv k s) (hop : s.uprog[k]? = some op) :
    SequencerInv (State.runMicroOp k op { s with rspValid := false }) := by
  obtain ⟨answers, draws, hrun⟩ | ⟨bytes, answers, draws, rfl, hrun⟩ :=
    runMicroOp_cases k op { s with rspValid := false } <;> rw [hrun]
  · have hexec := h.executed.afterOk op answers draws
    rw [← take_add_one_of_getElem? hop] at hexec
    exact hexec.advance h.prev h.uprog
  · exact h.executed.enterFaulted (uprog_eq_take_append hop ▸ h.madeOf) requestTxns_ne_nil rfl rfl rfl

theorem IdleInv.withPorts {s : State} (h : IdleInv s) (inputs : List Input) (pl : List Byte) (rsp : Bool) :
    IdleInv { s with inbox := inputs, plIn := pl, rspValid := rsp } :=
  ⟨h.st, h.sel, h.rst, h.uprog, h.framed⟩

theorem IdleInv.complete {s : State} (h : IdleInv s) (r : ResultCode) (data : Byte) : IdleInv (s.complete r data) :=
  ⟨h.st, h.sel, h.rst, rfl, h.framed⟩

theorem IdleInv.latch {s : State} (h : IdleInv s) (i : Instr) (m : Memory) : IdleInv (State.latch i { s with fb := m }) :=
  ⟨h.st, h.sel, h.rst, h.uprog, h.framed⟩

/-- Whatever an idle block accepts leaves it in the invariant. -/
theorem Accepted.sequencerInv {i : Instr} {s t : State} (h : Accepted i s t) (hs : IdleInv s) : SequencerInv t := by
  cases h with
  | done r data _ _ ht => exact ht ▸ (hs.latch i s.fb).complete r data
  | stored m _ _ _ _ ht => exact ht ▸ (hs.latch i m).complete .ok 0
  | illegal _ ht => exact ht ▸ hs.complete .illegalRequest 0
  | loaded ht =>
    subst t
    cases hprog : expand s.cfg s.st s.fb i with
    | nil => exact (hs.latch i s.fb).complete .ok 0
    | cons op ops =>
      exact BusyInv.mk hs.st hprog.symm (Nat.zero_lt_succ _) rfl hs.sel hs.rst ⟨s.mode, rfl⟩
        ⟨s.trace, hs.framed, by simp [okEvents]⟩

theorem SequencerInv.idle {s : State} (h : SequencerInv s) (hu : s.upc = .idle) : IdleInv s := by
  simpa only [SequencerInv, hu] using h

/-- Settles O51, by what the block does in the step: a micro-op extends what has been executed, and an idle block stays idle or
starts at the first micro-op. -/
theorem stepKeepsTheSequencerInvariant : Obligations.StepKeepsTheSequencerInvariant := by
  intro s t hs h
  cases step_next h with
  | micro k op hk hop ht => exact ht ▸ (hs.busy hk).runMicroOp hop
  | waiting hu _ ht => subst t; simpa only [SequencerInv, hu] using (hs.idle hu).withPorts s.inbox s.plIn false
  | blockReset inputs hu _ ht => exact ht ▸ IdleInv.mk rfl rfl rfl rfl (hs.idle hu).framed
  | illegal w inputs hu _ ht => exact ht ▸ ((hs.idle hu).withPorts inputs s.plIn s.rspValid).complete .illegalRequest 0
  | request w inputs i rest hu _ _ ht => exact (exec_next ht).2.sequencerInv ((hs.idle hu).withPorts inputs rest s.rspValid)
  | directive bytes inputs i hu _ _ ht => exact (exec_next ht).2.sequencerInv ((hs.idle hu).withPorts inputs s.plIn s.rspValid)

/-! ### The bus writes of a running request (O55) -/

theorem mem_cmdPairs {frames : List (List Byte)} {m : Level} {bytes : List Byte} :
    (m, bytes) ∈ cmdPairs frames ↔ m = .low ∧ bytes ∈ frames := by
  simp [cmdPairs, and_comm, eq_comm]

/-- Settles O55: the bus write stands in a transaction of its request, behind the writes of select and mode and before any further
write of the reset line. -/
theorem busWritesHappenSelectedInReadyOrConfiguring : Obligations.BusWritesHappenSelectedInReadyOrConfiguring := by
  intro s k bytes hs hk hop
  have hb := hs.busy hk
  have hsplit := uprog_eq_take_append hop
  obtain ⟨front, m, rest, hpre, -, hfront, hm⟩ := hb.madeOf.split_tx hsplit
  have hsel : s.sel = s.cfg.selAssert := by rw [hb.sel, hpre, lineAfter_append]; rfl
  have hrst : s.rst = s.cfg.rstDeassert := by rw [hb.rst, hpre, lineAfter_append, hfront.reset_line]; rfl
  obtain rfl : s.mode = m := by
    obtain ⟨l, hl⟩ := hb.mode
    rw [hl, hpre, lineAfter_append]; rfl
  refine ⟨hsel, hrst, ?_⟩
  obtain ⟨hst, hreq⟩ | ⟨hst, hreq⟩ := tx_in_expand (hb.uprog.symm.trans hsplit) <;> rw [← hb.st] at hst
  · rw [hreq] at hm
    exact .inl ⟨hst, hreq, (mem_cmdPairs.1 hm).1⟩
  obtain hreq | ⟨b, hreq⟩ | ⟨q, hreq⟩ | ⟨d, hreq⟩ := hreq <;> rw [hreq] at hm
  · exact .inr (.inr (.inr (.inl ⟨hst, hreq, hm⟩)))
  · obtain ⟨hmode, hbytes⟩ := Prod.mk.inj (List.mem_singleton.1 hm)
    exact .inr (.inl ⟨hst, ⟨b, hreq, hbytes⟩, hmode⟩)
  · cases q with
    | nil => cases hm
    | cons b q =>
      obtain ⟨hmode, rfl⟩ := Prod.mk.inj (List.mem_singleton.1 hm)
      exact .inr (.inr (.inl ⟨hst, hreq, hmode⟩))
  · rw [requestTxns_toInstr] at hm
    obtain ⟨hmode, hbytes⟩ := mem_cmdPairs.1 hm
    exact .inr (.inr (.inr (.inr ⟨hst, hmode, d, hreq, hbytes⟩)))

/-! ### The bus writes in the trace (O53) -/

/-- Each bus write in `t` has the writes of select and mode right before it and the deassertion of select right behind it. -/
def Bracketed (p : Params) (t : List Event) : Prop :=
  ∀ (i : Nat) (bytes : List Byte) (r : BusAnswer), t[i]? = some (.bus bytes r) →
    2 ≤ i ∧ t[i - 2]? = some (.line .select p.selAssert) ∧ (∃ m, t[i - 1]? = some (.line .mode m)) ∧
    t[i + 1]? = some (.line .select p.selDeassert)

theorem Bracketed.append {p : Params} {t u : List Event} (ht : Bracketed p t) (hu : Bracketed p u) : Bracketed p (t ++ u) := by
  intro i bytes r hi
  by_cases h : i < t.length
  · rw [List.getElem?_append_left h] at hi
    obtain ⟨h2, hsel, ⟨m, hmode⟩, hdes⟩ := ht i bytes r hi
    exact ⟨h2, by grind, ⟨m, by grind⟩, by grind⟩
  · rw [List.getElem?_append_right (Nat.le_of_not_lt h)] at hi
    obtain ⟨h2, hsel, ⟨m, hmode⟩, hdes⟩ := hu _ bytes r hi
    exact ⟨by omega, by grind, ⟨m, by grind⟩, by grind⟩

/-- A bracketed trace does not end with a bus write. -/
theorem Bracketed.not_last {p : Params} {t : List Event} (h : Bracketed p t) {i : Nat} {bytes : List Byte} {r : BusAnswer}
    (hi : t[i]? = some (.bus bytes r)) : i + 1 < t.length := by
  obtain ⟨-, -, -, hdes⟩ := h i bytes r hi
  exact (List.getElem?_eq_some_iff.1 hdes).1

theorem resetEvents_bracketed (p : Params) : Bracketed p (resetEvents p) :=
  fun _ _ _ hi => nomatch resetEvents_no_bus p _ (List.mem_of_getElem? hi)

theorem txnEvents_bracketed (p : Params) (m : Level) (r : BusAnswer) (bytes : List Byte) :
    Bracketed p (txnEvents p m r bytes) := by
  intro i bytes' r' hi
  obtain rfl : i = 2 := by
    have hlt : i < 4 := (List.getElem?_eq_some_iff.1 hi).1
    interval_cases i <;> simp_all [txnEvents]
  exact ⟨Nat.le_refl 2, rfl, ⟨m, rfl⟩, rfl⟩

theorem WellFramed.bracketed {p : Params} {t : List Event} (h : WellFramed p t) : Bracketed p t := by
  induction h with
  | nil => exact fun _ _ _ hi => by simp at hi
  | reset _ ih => exact ih.append (resetEvents_bracketed p)
  | txn m r _ _ ih => exact ih.append (txnEvents_bracketed p m r _)

/-- A bus write in the trace comes from a bus write among the micro-ops. -/
theorem tx_of_okEvents_bus {ops : List MicroOp} {j : Nat} {bytes : List Byte} {r : BusAnswer}
    (h : (okEvents ops)[j]? = some (.bus bytes r)) :
    ∃ pre bytes' post, ops = pre ++ .tx bytes' :: post ∧ (okEvents pre).length = j := by
  induction ops generalizing j with
  | nil => simp [okEvents] at h
  | cons op ops ih =>
    have hcons (l : List MicroOp) : okEvents (op :: l) = okEvents [op] ++ okEvents l := okEvents_append [op] l
    rw [hcons] at h
    by_cases hj : j < (okEvents [op]).length
    · rw [List.getElem?_append_left hj] at h
      cases op with
      | tx b => exact ⟨[], b, ops, rfl, (Nat.lt_one_iff.1 hj).symm⟩
      | state => cases hj
      | line | wait => cases Nat.lt_one_iff.1 hj; cases h
    · rw [List.getElem?_append_right (Nat.le_of_not_lt hj)] at h
      obtain ⟨pre, bytes', post, rfl, hlen⟩ := ih h
      exact ⟨op :: pre, bytes', post, rfl, by rw [hcons, List.length_append, hlen]; omega⟩

/-- If a bus write is the last event of the first `k` micro-ops, the next micro-op is the deassertion of select. -/
theorem MadeOf.deassert_next {p : Params} {txns : List (Level × List Byte)} {ops : List MicroOp} {k j : Nat}
    {bytes : List Byte} {r : BusAnswer} (h : MadeOf p txns ops) (hj : (okEvents (ops.take k))[j]? = some (.bus bytes r))
    (hlast : j + 1 = (okEvents (ops.take k)).length) : ops[k]? = some (.line .select p.selDeassert) := by
  obtain ⟨pre, bytes', post, htake, hlen⟩ := tx_of_okEvents_bus hj
  have hpost : okEvents post = [] := by
    rw [htake, okEvents_append, List.length_append, hlen, okEvents, List.length_cons] at hlast
    exact List.eq_nil_of_length_eq_zero (by omega)
  have hops : ops = pre ++ .tx bytes' :: (post ++ ops.drop k) := by
    rw [← List.cons_append, ← List.append_assoc, ← htake, List.take_append_drop]
  obtain ⟨-, -, rest, -, hrest, -⟩ := h.split_tx hops
  cases post with
  | nil =>
    rw [← Nat.add_zero k, ← List.getElem?_drop, ← List.nil_append (ops.drop k), hrest]
    rfl
  | cons op post =>
    obtain ⟨rfl, -⟩ := List.cons.inj hrest
    cases hpost

/-- Settles O53: the trace, with the events that the running request still owes, is well framed, so its bus writes are bracketed;
only the deassertion behind the last of them can be owed, and then it is the next micro-op. -/
theorem everyBusWriteIsBracketed : Obligations.EveryBusWriteIsBracketed := by
  intro s hs i bytes r hi
  cases hu : s.upc with
  | idle =>
    obtain ⟨h2, hsel, hmode, hdes⟩ := (hs.idle hu).framed.bracketed i bytes r hi
    exact ⟨h2, hsel, hmode, .inl hdes⟩
  | running k =>
    have hb := hs.busy hu
    obtain ⟨t, ht, htrace⟩ := hb.framed
    have hwhole : Bracketed s.cfg (s.trace ++ okEvents (s.uprog.drop k)) := by
      rw [htrace, List.append_assoc, ← okEvents_append, List.take_append_drop]
      exact (hb.madeOf.framed requestTxns_ne_nil ht).bracketed
    have hlt : i < s.trace.length := (List.getElem?_eq_some_iff.1 hi).1
    obtain ⟨h2, hsel, ⟨m, hmode⟩, hdes⟩ := hwhole i bytes r (by rw [List.getElem?_append_left hlt, hi])
    rw [List.getElem?_append_left (by omega)] at hsel hmode
    refine ⟨h2, hsel, ⟨m, hmode⟩, ?_⟩
    by_cases hlast : i + 1 < s.trace.length
    · exact .inl (by rwa [List.getElem?_append_left hlast] at hdes)
    · have hend : i + 1 = s.trace.length := by omega
      have hrunning : t.length ≤ i := by
        by_contra hbefore
        rw [htrace, List.getElem?_append_left (by omega)] at hi
        have hmore := ht.bracketed.not_last hi
        rw [htrace, List.length_append] at hlast
        omega
      refine .inr ⟨hend, k, rfl, ?_⟩
      rw [htrace, List.getElem?_append_right hrunning] at hi
      exact hb.madeOf.deassert_next hi (by rw [htrace, List.length_append] at hend; omega)

end Sys2Proof.Machine
end

section
/-! SUPPORT. Proofs about `UPDATE` (spec/44_update.md): how the buffer is cut, what the transactions of an update carry, and how
an update ends. -/

namespace Sys2Proof.Machine

/-! ### The chunks of the buffer (R234) -/

theorem chunks_none (bytes : List Byte) : chunks none bytes = [bytes] := rfl

theorem chunks_of_le {m : Nat} (bytes : List Byte) (h : 1024 ≤ m) : chunks (some m) bytes = [bytes] := if_pos h

theorem chunks_of_lt {m : Nat} (bytes : List Byte) (h : m < 1024) :
    chunks (some m) bytes = (List.range ((1024 + m - 1) / m)).map fun j => (bytes.drop (j * m)).take m :=
  if_neg (Nat.not_le.2 h)

/-- The number of chunks is the least `n` whose `n` full pieces cover the buffer. -/
theorem lt_chunkCount_iff {m j : Nat} (hm : 1 ≤ m) : j < (1024 + m - 1) / m ↔ j * m < 1024 := by
  rw [Nat.lt_iff_add_one_le, Nat.le_div_iff_mul_le hm, Nat.add_one_mul]
  omega

/-- The first `n` pieces of `m` bytes join to the first `n * m` bytes. -/
theorem flatten_pieces (bytes : List Byte) (m n : Nat) :
    ((List.range n).map fun j => (bytes.drop (j * m)).take m).flatten = bytes.take (n * m) := by
  induction n with
  | zero => simp
  | succ n ih => simp [List.range_succ, ih, Nat.add_one_mul, List.take_add]

theorem flatten_chunks {m : Nat} {bytes : List Byte} (hlen : bytes.length = 1024) (hm : 1 ≤ m) :
    (chunks (some m) bytes).flatten = bytes := by
  obtain h | h := Nat.lt_or_ge m 1024
  · have hcover : 1024 ≤ (1024 + m - 1) / m * m := Nat.not_lt.1 fun hlt => Nat.lt_irrefl _ ((lt_chunkCount_iff hm).2 hlt)
    rw [chunks_of_lt bytes h, flatten_pieces, List.take_of_length_le (hlen ▸ hcover)]
  · simp [chunks_of_le bytes h]

theorem chunk_length_bounds {m : Nat} {bytes c : List Byte} (hlen : bytes.length = 1024) (hm : 1 ≤ m)
    (hc : c ∈ chunks (some m) bytes) : 0 < c.length ∧ c.length ≤ m := by
  obtain h | h := Nat.lt_or_ge m 1024
  · rw [chunks_of_lt bytes h] at hc
    obtain ⟨j, hj, rfl⟩ := List.mem_map.1 hc
    have hstart : j * m < 1024 := (lt_chunkCount_iff hm).1 (List.mem_range.1 hj)
    rw [List.length_take, List.length_drop, hlen]
    omega
  · rw [chunks_of_le bytes h, List.mem_singleton] at hc
    subst c
    omega

/-- Every chunk that another one follows is full. -/
theorem chunk_full {m j : Nat} {bytes : List Byte} (hlen : bytes.length = 1024) (hm : 1 ≤ m) (h : m < 1024)
    (hj : j + 1 < (1024 + m - 1) / m) : ((chunks (some m) bytes)[j]?).map List.length = some m := by
  have hend : (j + 1) * m < 1024 := (lt_chunkCount_iff hm).1 hj
  have hget : (chunks (some m) bytes)[j]? = some ((bytes.drop (j * m)).take m) := by
    rw [chunks_of_lt bytes h, List.getElem?_map, List.getElem?_range (Nat.lt_of_succ_lt hj), Option.map_some]
  rw [Nat.add_one_mul] at hend
  rw [hget, Option.map_some, List.length_take, List.length_drop, hlen, Nat.min_eq_left (by omega)]

/-- Settles O42: below 1024 the pieces start inside the buffer and the last of them reaches its end. -/
theorem chunksPartitionTheBuffer : Obligations.ChunksPartitionTheBuffer := by
  intro bytes hlen
  refine ⟨chunks_none bytes, fun m => chunks_of_le bytes, fun m hm => ⟨flatten_chunks hlen hm, fun c hc => ?_⟩, fun m hm h => ?_⟩
  · obtain ⟨hpos, hle⟩ := chunk_length_bounds hlen hm hc
    exact ⟨List.length_pos_iff.1 hpos, hle⟩
  · have hlt : m < 1024 := Nat.lt_succ_of_le h
    exact ⟨by simp [chunks_of_lt bytes hlt], fun j => chunk_full hlen hm hlt⟩

/-- Under a well-formed configuration the chunks join to the content of FB. -/
theorem flatten_chunks_bytes {p : Params} (h : p.wf = true) (m : Memory) : (chunks p.maxChunk m.bytes).flatten = m.bytes := by
  cases hc : p.maxChunk with
  | none => simp [chunks_none]
  | some n =>
    have hn : 1 ≤ n := by
      simp only [Params.wf, hc, maxChunkOk, Bool.and_eq_true, decide_eq_true_eq] at h
      exact h.2
    exact flatten_chunks (Memory.bytes_length m) hn

/-! ### An update whose bus writes are all answered `Ok` (R231, R233, R235) -/

theorem exec_update {s : State} (hu : s.upc = .idle) (hst : s.st = .ready) :
    exec .update s = .next ((s.latch .update).load (txnsProgram s.cfg (updateTxns s.cfg s.fb))) := by
  rw [← updateProgram_eq]
  exact acceptReady_idle .update _ hu hst

/-- The last transaction of an update is a data transaction: FB is not empty, so there is a chunk. -/
theorem updateTxns_last_mode {p : Params} (h : p.wf = true) (m : Memory) :
    ∃ front c, updateTxns p m = front ++ [(.high, c)] := by
  have hne : chunks p.maxChunk m.bytes ≠ [] := by
    intro hnil
    have hlen := congrArg List.length (flatten_chunks_bytes h m)
    simp [hnil] at hlen
  obtain ⟨front, c, hc⟩ := List.eq_nil_or_concat (chunks p.maxChunk m.bytes) |>.resolve_left hne
  exact ⟨_, c, by simp only [updateTxns, hc, List.concat_eq_append, List.map_append, ← List.append_assoc]; rfl⟩

/-- Settles O43: the micro-program is the update's transactions, the last of which leaves mode `High`. -/
theorem updateSendsTheWindowThenTheFrame : Obligations.UpdateSendsTheWindowThenTheFrame := by
  intro s rest hu hst hwf ha
  obtain ⟨front, c, htxns⟩ := updateTxns_last_mode hwf s.fb
  have hmode : ((updateTxns s.cfg s.fb).map Prod.fst).getLastD s.mode = .high := by simp [htxns]
  have hrun := steps_txnsProgram .update (txns := updateTxns s.cfg s.fb) rest (by simp [htxns]) ha
  rw [hmode, hst] at hrun
  refine ⟨_, exec_update hu hst, ?_⟩
  rw [hst]
  exact hrun

/-! ### What the data transactions carry (R237) -/

/-- A transaction sets the mode line itself, so the level before it does not matter. -/
theorem dataPayload_okTxns (p : Params) (txns : List (Level × List Byte)) (m : Level) :
    dataPayload m (okTxns p txns) = (txns.filter (·.1 = .high)).flatMap Prod.snd := by
  induction txns generalizing m with
  | nil => rfl
  | cons t txns ih =>
    obtain ⟨l, bytes⟩ := t
    have hcons : okTxns p ((l, bytes) :: txns) = txnEvents p l .ok bytes ++ okTxns p txns := rfl
    rw [hcons]
    cases l <;> simp [txnEvents, dataPayload, ih]

/-- Only the chunks are sent with mode `High`, and they join to FB. -/
theorem dataPayload_updateTxns {p : Params} (h : p.wf = true) (fb : Memory) (m : Level) :
    dataPayload m (okTxns p (updateTxns p fb)) = fb.bytes := by
  rw [dataPayload_okTxns, updateTxns]
  simpa [List.filter_map, List.flatMap_map, Function.comp_def] using flatten_chunks_bytes h fb

/-- Settles O44: the update appends the events of its transactions, whose data bytes are FB. -/
theorem updatePayloadIsTheFramebuffer : Obligations.UpdatePayloadIsTheFramebuffer := by
  intro s rest hu hst hwf ha
  obtain ⟨a, hexec, hrun⟩ := updateSendsTheWindowThenTheFrame s rest hu hst hwf ha
  exact ⟨a, _, okTxns s.cfg (updateTxns s.cfg s.fb), _, hexec, hrun, rfl, rfl, rfl, dataPayload_updateTxns hwf s.fb⟩

/-! ### An update with a failed bus write (R236) -/

/-- The micro-ops of transactions up to the bus write of the one that follows `before`, whose mode level is `m`. -/
def txnsToWrite (p : Params) (before : List (Level × List Byte)) (m : Level) : List MicroOp :=
  txnsProgram p before ++ [.line .select p.selAssert, .line .mode m]

theorem txnsProgram_eq_toWrite (p : Params) (before after : List (Level × List Byte)) (m : Level) (bytes : List Byte) :
    txnsProgram p (before ++ (m, bytes) :: after) =
      txnsToWrite p before m ++ .tx bytes :: .line .select p.selDeassert :: txnsProgram p after := by
  simp [txnsToWrite, txnsProgram, txn]

/-- Settles O45: the program runs to the failed bus write, and the abort rule ends it there. -/
theorem updateFailureEndsInFaulted : Obligations.UpdateFailureEndsInFaulted := by
  intro s rest before after m bytes hu hst htxns ha
  have hlen : 4 * before.length + 3 = (txnsToWrite s.cfg before m).length + 1 := by simp [txnsToWrite]
  have hrun := steps_failed .update (txnsToWrite s.cfg before m) (.line .select s.cfg.selDeassert :: txnsProgram s.cfg after)
    bytes rest (by simpa [txnsToWrite, busWrites] using ha)
  refine ⟨_, exec_update hu hst, ?_⟩
  rw [htxns, txnsProgram_eq_toWrite, hlen, hrun]
  simp [State.enterFaulted, State.afterOk, State.complete, State.latch, State.setLine, State.record, txnsToWrite, lineAfter,
    okEvents, txnEvents, hst]

end Sys2Proof.Machine
end

section
/-! SUPPORT. Proofs about errors and `Faulted` (spec/60_exceptions.md): the refusal of the requests that need `Ready`, and the one
way out of `Faulted`. -/

namespace Sys2Proof.Machine

/-! ### Requests refused outside `Ready` (R253) -/

theorem acceptReady_refused {s : State} (i : Instr) (prog : List MicroOp) (hu : s.upc = .idle) (hst : s.st ≠ .ready) :
    acceptReady i prog s = .next { s with
      req := i, stPrev := s.st, uprog := [], res := .notInitialized, rspValid := true, rspData := 0 } :=
  (acceptReady_other i prog hst).trans (acceptDone_idle i .notInitialized 0 hu)

/-- Settles O40: each of these requests is accepted through `acceptReady`. -/
theorem gatedRequestsAreRefusedOutsideReady : Obligations.GatedRequestsAreRefusedOutsideReady := by
  intro s i hu hst hi
  obtain rfl | ⟨b, rfl⟩ | ⟨payload, hne, rfl⟩ | ⟨d, rfl⟩ := hi
  · exact acceptReady_refused .update _ hu hst
  · exact acceptReady_refused (.writeCommand b) _ hu hst
  · exact exec_writeData_refused hu hst hne
  · exact (exec_toInstr d s).trans (acceptReady_refused d.toInstr _ hu hst)

/-! ### The way out of `Faulted` (R195, R259) -/

/-- A request that moves on from its last micro-op ends with `Ok`, where its whole micro-program leads. -/
theorem Executed.ends {k : Nat} {s : State} (h : Executed (s.uprog.take (k + 1)) s)
    (hprog : s.uprog = expand s.cfg s.stPrev s.fb s.req) (hidle : (s.advance k).upc = .idle) :
    (s.advance k).res = .ok ∧ (s.advance k).st = stAfter s.stPrev (expand s.cfg s.stPrev s.fb s.req) := by
  by_cases hk : k + 1 < s.uprog.length
  · rw [State.advance_more hk] at hidle
    cases hidle
  · have hend := Nat.not_lt.1 hk
    rw [List.take_of_length_le hend, hprog] at h
    rw [State.advance_last hend]
    exact ⟨rfl, h.st⟩

/-- A running request ends in `Faulted`, or with `Ok` where its whole micro-program leads. -/
theorem BusyInv.ends {k : Nat} {s t : State} {op : MicroOp} (h : BusyInv k s) (hop : s.uprog[k]? = some op)
    (ht : t = State.runMicroOp k op { s with rspValid := false }) (hidle : t.upc = .idle) :
    t.st = .faulted ∨ (t.res = .ok ∧ t.st = stAfter s.stPrev (expand s.cfg s.stPrev s.fb s.req)) := by
  obtain ⟨answers, draws, hrun⟩ | ⟨bytes, answers, draws, -, hrun⟩ :=
    runMicroOp_cases k op { s with rspValid := false } <;> rw [ht, hrun] at hidle ⊢
  · have hexec := h.executed.afterOk op answers draws
    rw [← take_add_one_of_getElem? hop] at hexec
    exact .inr (hexec.ends h.uprog hidle)
  · exact .inl rfl

theorem stAfter_initProgram (p : Params) (prev : Session) : stAfter prev (initProgram p) = .ready := by
  simp [initProgram, stAfter]

/-- From `Faulted`, only the micro-program of `INIT` leads elsewhere. -/
theorem eq_init_of_stAfter_ne_faulted {p : Params} {m : Memory} {i : Instr}
    (h : stAfter .faulted (expand p .faulted m i) ≠ .faulted) : i = .init := by
  by_contra hi
  by_cases hr : i = .resetSeq
  · subst hr
    exact h (by simp [expand, resetSeqProgram_eq, stAfter, postState])
  · obtain ⟨txns, ht, -⟩ := expand_eq_txnsProgram p .faulted m hi hr
    exact h (by rw [ht, stAfter_txnsProgram])

/-- Settles O57: a request accepted in `Faulted` that does not end there has run its whole micro-program, which is that of
`INIT`. -/
theorem onlyASuccessfulInitLeavesFaulted : Obligations.OnlyASuccessfulInitLeavesFaulted := by
  refine ⟨fun s t k hs hk hprev h hidle hne => ?_, fun i s t h => (exec_next h).2.st⟩
  cases step_next h with
  | micro j op hj hop ht =>
    obtain hfaulted | ⟨hres, hst⟩ := (hs.busy hj).ends hop ht hidle
    · exact absurd hfaulted hne
    rw [hprev] at hst
    have hinit : s.req = .init := eq_init_of_stAfter_ne_faulted (hst ▸ hne)
    rw [hinit] at hst
    exact ⟨hinit, hres, hst.trans (stAfter_initProgram s.cfg .faulted)⟩
  | waiting hu | blockReset _ hu | illegal _ _ hu | request _ _ _ _ hu | directive _ _ _ hu =>
    exact absurd (hu.symm.trans hk) nofun

end Sys2Proof.Machine
end
